-- ==== Sys2Proof/Word.lean ====
section
/-! DEFINITION. The widths of the block (00_scope.md R5, R12, R13): a bus address has 16 bits, a data byte has 8,
every value is unsigned, and an offset into an image is a natural number (R14). -/

namespace Sys2Proof

/-- One byte, `u8` (00_scope.md R5, R13). -/
abbrev Byte := BitVec 8

/-- One bus address, `u16` (00_scope.md R5, R13). -/
abbrev Address := BitVec 16

end Sys2Proof
end

