-- ==== Sys2Proof/Syntax.lean ====
section
/-! DEFINITION. The operations of the block, one constructor per mnemonic of spec/opcode_table.json (30_encoding.md R85).
The operands are those the rule of each operation lists: a read carries its address, a write its address and its data,
SAVE and LOAD carry nothing (their sink and source travel beside the word, 42_persistence.md R160). -/

namespace Sys2Proof

/-- The twelve operations. `RD.NONE` and `WR.NONE` have two rows of the table each, because windows 4, 6 and 7 are not
one aligned block (R85); each is ONE operation. -/
inductive Instr where
  /-- `RD.ROM0` (40_address_decoder.md R116), windows 0 and 1. -/
  | rdRom0 (address : Address)
  /-- `RD.ROMX` (R117), windows 2 and 3. -/
  | rdRomX (address : Address)
  /-- `RD.NONE` (R119), windows 4, 6 and 7. -/
  | rdNone (address : Address)
  /-- `RD.RAM` (R118), window 5. -/
  | rdRam (address : Address)
  /-- `WR.RAMEN` (41_register_state_machine.md R141), window 0. -/
  | wrRamen (address : Address) (data : Byte)
  /-- `WR.BANK1` (R142), window 1. -/
  | wrBank1 (address : Address) (data : Byte)
  /-- `WR.BANK2` (R143), window 2. -/
  | wrBank2 (address : Address) (data : Byte)
  /-- `WR.MODE` (R144), window 3. -/
  | wrMode (address : Address) (data : Byte)
  /-- `WR.NONE` (R145), windows 4, 6 and 7. -/
  | wrNone (address : Address) (data : Byte)
  /-- `WR.RAM` (40_address_decoder.md R120), window 5. -/
  | wrRam (address : Address) (data : Byte)
  /-- `SAVE` (42_persistence.md R161). -/
  | save
  /-- `LOAD` (R163). -/
  | load
  deriving DecidableEq, Repr

end Sys2Proof
end

