-- ==== Sys2Proof/Decode.lean ====
section
/-! DEFINITION. From operation words to operations and back (30_encoding.md R82 to R89). The decoder is total: it answers
an operation, or the name of the reason why the number is no encoding (R88). The encoder gives the canonical word. -/

namespace Sys2Proof

/-- Why a request is no encoding of an operation (30_encoding.md R88). -/
inductive DecodeError where
  /-- An address wider than 16 bits or data wider than 8 bits (60_exceptions.md R181). -/
  | preconditionViolation
  /-- A number that is no 26-bit word: its kind is not 0 to 3 (30_encoding.md R82). -/
  | notAnOperation
  deriving DecidableEq, Repr

/-- `window(address) = address[15:13]` (40_address_decoder.md R110). -/
def window (a : Address) : BitVec 3 :=
  a.extractLsb' 13 3

/-- The operation a bus read selects (30_encoding.md R85, kind 0). -/
def decodeRead (a : Address) : Instr :=
  let w := window a
  if w = 0 ∨ w = 1 then .rdRom0 a
  else if w = 2 ∨ w = 3 then .rdRomX a
  else if w = 5 then .rdRam a
  else .rdNone a

/-- The operation a bus write selects (30_encoding.md R85, kind 1). -/
def decodeWrite (a : Address) (d : Byte) : Instr :=
  let w := window a
  if w = 0 then .wrRamen a d
  else if w = 1 then .wrBank1 a d
  else if w = 2 then .wrBank2 a d
  else if w = 3 then .wrMode a d
  else if w = 5 then .wrRam a d
  else .wrNone a d

/-- The operation the three fields `{kind, addr, data}` of a word name (30_encoding.md R82, R85), carried as numbers
that may be wider than the bus: then the operation is refused and nothing is cut off (60_exceptions.md R181). A field
the operation ignores is not looked at: the data of a read, the address and the data of SAVE and LOAD (R82). -/
def decodeFields (kind address data : Nat) : Except DecodeError Instr :=
  match kind with
  | 0 =>
    if address < 2 ^ 16 then .ok (decodeRead (BitVec.ofNat 16 address)) else .error .preconditionViolation
  | 1 =>
    if address < 2 ^ 16 ∧ data < 2 ^ 8 then .ok (decodeWrite (BitVec.ofNat 16 address) (BitVec.ofNat 8 data))
    else .error .preconditionViolation
  | 2 => .ok .save
  | 3 => .ok .load
  | _ => .error .notAnOperation

/-- Bits [25:24] of a word and every bit above them (30_encoding.md R82): a number above 3 here is no word. -/
def wordKind (w : Nat) : Nat :=
  w / 2 ^ 24

/-- Bits [23:8] of a word (30_encoding.md R82). -/
def wordAddress (w : Nat) : Nat :=
  w / 2 ^ 8 % 2 ^ 16

/-- Bits [7:0] of a word (30_encoding.md R82). -/
def wordData (w : Nat) : Nat :=
  w % 2 ^ 8

/-- The operation a word encodes. Every number below `2 ^ 26` encodes exactly one (30_encoding.md R85). -/
def decodeWord (w : Nat) : Except DecodeError Instr :=
  decodeFields (wordKind w) (wordAddress w) (wordData w)

/-- The host's question: the operation of a word whose bits are numbered as spec/opcode_table.json numbers them. The
format is one word (30_encoding.md R89), so `w` is that word, and the length `_nbits` says nothing more about it. -/
def decodeTableWord (_nbits w : Nat) : Option Instr :=
  match decodeWord w with
  | .ok i => some i
  | .error _ => none

/-- `word = {kind, addr, data}` (30_encoding.md R82). -/
def packWord (kind : BitVec 2) (address : Address) (data : Byte) : BitVec 26 :=
  kind ++ address ++ data

/-- The canonical word of an operation: "The canonical word has every ignored field zero" (30_encoding.md R82). -/
def encode : Instr → BitVec 26
  | .rdRom0 a => packWord 0 a 0
  | .rdRomX a => packWord 0 a 0
  | .rdNone a => packWord 0 a 0
  | .rdRam a => packWord 0 a 0
  | .wrRamen a d => packWord 1 a d
  | .wrBank1 a d => packWord 1 a d
  | .wrBank2 a d => packWord 1 a d
  | .wrMode a d => packWord 1 a d
  | .wrNone a d => packWord 1 a d
  | .wrRam a d => packWord 1 a d
  | .save => packWord 2 0 0
  | .load => packWord 3 0 0

/-- The mnemonic of an operation, as 30_encoding.md R85 writes it. -/
def Instr.mnemonic : Instr → String
  | .rdRom0 _ => "RD.ROM0"
  | .rdRomX _ => "RD.ROMX"
  | .rdNone _ => "RD.NONE"
  | .rdRam _ => "RD.RAM"
  | .wrRamen _ _ => "WR.RAMEN"
  | .wrBank1 _ _ => "WR.BANK1"
  | .wrBank2 _ _ => "WR.BANK2"
  | .wrMode _ _ => "WR.MODE"
  | .wrNone _ _ => "WR.NONE"
  | .wrRam _ _ => "WR.RAM"
  | .save => "SAVE"
  | .load => "LOAD"

/-- One row of the match and mask table of 30_encoding.md R85. -/
structure OpcodeRow where
  mnemonic : String
  mask : BitVec 26
  value : BitVec 26
  deriving DecidableEq, Repr

/-- `word & mask == match` (30_encoding.md R85). -/
def rowSelects (w : BitVec 26) (r : OpcodeRow) : Bool :=
  w &&& r.mask == r.value

/-- The fourteen rows of 30_encoding.md R85 (and of spec/opcode_table.json), in the spec's order. -/
def opcodeRows : List OpcodeRow :=
  [ ⟨"RD.ROM0", 0x3C00000, 0x0000000⟩,
    ⟨"RD.ROMX", 0x3C00000, 0x0400000⟩,
    ⟨"RD.NONE", 0x3E00000, 0x0800000⟩,
    ⟨"RD.RAM", 0x3E00000, 0x0A00000⟩,
    ⟨"RD.NONE", 0x3C00000, 0x0C00000⟩,
    ⟨"WR.RAMEN", 0x3E00000, 0x1000000⟩,
    ⟨"WR.BANK1", 0x3E00000, 0x1200000⟩,
    ⟨"WR.BANK2", 0x3E00000, 0x1400000⟩,
    ⟨"WR.MODE", 0x3E00000, 0x1600000⟩,
    ⟨"WR.NONE", 0x3E00000, 0x1800000⟩,
    ⟨"WR.RAM", 0x3E00000, 0x1A00000⟩,
    ⟨"WR.NONE", 0x3C00000, 0x1C00000⟩,
    ⟨"SAVE", 0x3000000, 0x2000000⟩,
    ⟨"LOAD", 0x3000000, 0x3000000⟩ ]

end Sys2Proof
end

