-- ==== Sys2Proof/Config.lean ====
section
/-! DEFINITION. The parameters the spec leaves to whoever constructs the controller (00_scope.md R6, R7; 10_state.md
R25). Each is an opaque constant with no body: nothing in Lean can evaluate it, so a claim about `State.reset` holds for
every choice. (The fixed constants of the block, 00_scope.md R10 and R11, stand in Machine/Operands.lean.)
Log entry 2. -/

namespace Sys2Proof

/-- The first byte of the ROM image. That there is one is `ROM_SIZE >= 1` (00_scope.md R6). -/
opaque Config.romFirst : Byte

/-- The other bytes of the ROM image, in ascending offset order (00_scope.md R6). -/
opaque Config.romRest : List Byte

/-- `RAM_INIT`, the bytes of the RAM image at construction in ascending offset order (10_state.md R25); its length is
`RAM_SIZE` (00_scope.md R7). -/
opaque Config.ramInit : List Byte

end Sys2Proof
end

