-- ==== Sys2Proof/Machine/Memory.lean ====
section
/-! DEFINITION. The bytes of an image (the ROM offset space and the RAM offset space of 20_memory.md R50) as plain data:
a list of cells in one canonical form, offsets strictly rising and no cell holding what an unlisted offset reads as.
Log entry 3. -/

namespace Sys2Proof.Machine

/-- The cells of an image, by offset. -/
abbrev Memory := List Host.Cell

/-- What an unlisted offset reads as. It only chooses which bytes are listed: every content of every image has a list
(`Memory.ofBytes`), so nothing is said of a fresh RAM by it. Log entry 3. -/
def Memory.unlisted : Byte := 0x00

/-- The byte at an offset: `ROM[off]` or `RAM[off]` (00_scope.md R15). -/
def Memory.read : Memory → Nat → Byte
  | [], _ => Memory.unlisted
  | (a, b) :: m, off => if a = off then b else Memory.read m off

/-- A cell put before the cells above it, left out when its byte is what an unlisted offset reads as. -/
def Memory.cons (off : Nat) (v : Byte) (m : Memory) : Memory :=
  if v = Memory.unlisted then m else (off, v) :: m

/-- `RAM[off] <- v` (00_scope.md R15), keeping the canonical form. -/
def Memory.write : Memory → Nat → Byte → Memory
  | [], off, v => Memory.cons off v []
  | (a, b) :: m, off, v =>
    if off < a then Memory.cons off v ((a, b) :: m)
    else if off = a then Memory.cons off v m
    else (a, b) :: Memory.write m off v

/-- The image of a byte sequence, its first byte at offset `off`, ascending (42_persistence.md R163). -/
def Memory.ofBytesFrom : Nat → List Byte → Memory
  | _, [] => []
  | off, b :: bs => Memory.cons off b (Memory.ofBytesFrom (off + 1) bs)

/-- The image of a byte sequence, byte `i` at offset `i` (42_persistence.md R165). -/
def Memory.ofBytes (bs : List Byte) : Memory :=
  Memory.ofBytesFrom 0 bs

/-- The bytes of an image of `size` bytes, in ascending offset order (42_persistence.md R161). -/
def Memory.toBytes (size : Nat) (m : Memory) : List Byte :=
  (List.range size).map (Memory.read m)

/-- The canonical form, for cells at offsets from `lo` up to but without `size`. -/
def Memory.wfFrom (size : Nat) : Nat → Memory → Bool
  | _, [] => true
  | lo, (a, b) :: m => decide (lo ≤ a) && decide (a < size) && b != Memory.unlisted && Memory.wfFrom size (a + 1) m

/-- The canonical form of an image of `size` bytes. -/
def Memory.wf (size : Nat) (m : Memory) : Bool :=
  Memory.wfFrom size 0 m

end Sys2Proof.Machine
end

