-- ==== Sys2Proof/Machine/State.lean ====
section
/-! DEFINITION. The state of the block as plain data (10_state.md R20 to R28), the reasons a step can stop, construction
(70_reset_and_hazards.md R210 to R213) and the state after it. The five items of R20 are `ramEnabled`, `mode`,
`lowBankBits`, `secondaryBankBits` and `ram`. The constant `rom` stands beside them so that a state says which machine it is a state
of (log entry 1). `stream`, `host` and `result` are the model's own: the operations still to come, the environment's
answers, and what the last operation returned (log entries 4, 6 and 7). -/

namespace Sys2Proof.Machine

/-- The 1-bit `mode` latch: "{MODE_0, MODE_1}" (10_state.md R22). -/
inductive Mode where
  | mode0
  | mode1
  deriving DecidableEq, Repr

/-- The ROM image (10_state.md R26). It holds its LAST offset, so that `ROM_SIZE >= 1` (00_scope.md R6) holds of every
one that can be written down. -/
structure RomImage where
  /-- `ROM_SIZE - 1`. -/
  last : Nat
  /-- The bytes. -/
  cells : Memory
  deriving DecidableEq, Repr

/-- The RAM image (10_state.md R25). -/
structure RamImage where
  /-- `RAM_SIZE`, any natural number including 0 (00_scope.md R7). -/
  size : Nat
  /-- The bytes. -/
  cells : Memory
  deriving DecidableEq, Repr

/-- What the sink of a SAVE does: a free input of the step (42_persistence.md R160, R162). -/
inductive Sink where
  /-- It takes every byte. -/
  | accepts
  /-- It "cannot be opened or the write is incomplete". -/
  | fails
  deriving DecidableEq, Repr

/-- The operand of a LOAD (42_persistence.md R160). -/
inductive Source where
  /-- `Bytes(bs)`: the source delivers `bs`. -/
  | bytes (bs : List Byte)
  /-- `Unavailable`: it "cannot be opened" or "a decode error occurs". -/
  | unavailable
  deriving DecidableEq, Repr

/-- What "travels beside the word" of an operation (30_encoding.md R82, 42_persistence.md R160). -/
structure HostSide where
  sink : Sink
  source : Source
  deriving DecidableEq, Repr

/-- One operation of the input stream: the three fields of its word (30_encoding.md R82), carried as numbers that may be
wider than the bus so that a breach of the caller's contract can be said (60_exceptions.md R181, log entry 5), and what
travels beside the word. -/
structure Request where
  kind : Nat
  address : Nat
  data : Nat
  host : HostSide
  deriving DecidableEq, Repr

/-- What an operation returned to its caller (30_encoding.md R80, 42_persistence.md R160). -/
inductive Result where
  /-- No operation has been performed since construction. -/
  | none
  /-- The `u8` of a read. -/
  | byte (v : Byte)
  /-- The `()` of a write. -/
  | unit
  /-- `Ok(bytes)` of a SAVE. -/
  | saved (bytes : List Byte)
  /-- `Ok` of a LOAD. -/
  | loaded
  /-- `IOError` of a SAVE or a LOAD: "back to the host, as the result of the operation" (60_exceptions.md R186). -/
  | ioError
  deriving DecidableEq, Repr

/-- The machine. -/
structure State where
  /-- The `ramEnabled` latch (10_state.md R21). -/
  ramEnabled : Bool
  /-- The `mode` latch (R22). -/
  mode : Mode
  /-- The `lowBankBits` latch, 5 bits, legal values 1 to 31 (R23, R29). -/
  lowBankBits : BitVec 5
  /-- The `secondaryBankBits` latch, 2 bits (R24). -/
  secondaryBankBits : BitVec 2
  /-- The RAM image (R25). -/
  ram : RamImage
  /-- The ROM image, a constant that no operation writes (R26). -/
  rom : RomImage
  /-- The operations still to come, the next one first (R31). -/
  stream : List Request
  /-- What stands beside the word of the operation being performed (30_encoding.md R82). -/
  host : HostSide
  /-- What the last operation returned. -/
  result : Result
  deriving DecidableEq, Repr

/-- Why the machine stops with a fault. -/
inductive Fault where
  /-- `RamAbsent` (60_exceptions.md R180, R183), raised by RD.RAM and WR.RAM when `RAM_SIZE` is 0 and `ramEnabled` is
  true; it records the bus address. Safe: nothing can be proved of a run that reaches it (92_eei_decisions.md D6). -/
  | ramAbsent (address : Address)
  deriving DecidableEq, Repr

/-- Why the machine refuses an operation. -/
inductive Refusal where
  /-- An operation of the table that has no meaning yet; no arm of `exec` raises it. Safe. -/
  | notModelled (mnemonic : String)
  /-- `PreconditionViolation`, raised by `step` on a request whose address is wider than 16 bits or whose data is wider
  than 8 bits (60_exceptions.md R181). Safe: the spec asks for the refusal. -/
  | preconditionViolation
  /-- Raised by `step` on a request whose kind is not 0 to 3: it is no word of 30_encoding.md R82. Safe. -/
  | notAnOperation
  /-- Raised by `step` when the list of operations is exhausted: the run is over (10_state.md R31). Safe. -/
  | streamExhausted
  /-- Raised by `State.construct` on an empty ROM image (70_reset_and_hazards.md R212). Safe: the spec asks for it. -/
  | emptyRom
  deriving DecidableEq, Repr

/-- What stands beside the first word of a run that names nothing else. DESIGN CHOICE, log entry 6; no statement rests
on it. -/
def HostSide.initial : HostSide :=
  { sink := .accepts, source := .unavailable }

/-- A new controller over a ROM image of at least one byte and a RAM image with the bytes `RAM_INIT`
(70_reset_and_hazards.md R211; 10_state.md R21 to R25). -/
def State.fresh (romFirst : Byte) (romRest ramInit : List Byte) : State :=
  { ramEnabled := false
    mode := .mode0
    lowBankBits := 1
    secondaryBankBits := 0
    ram := { size := ramInit.length, cells := Memory.ofBytes ramInit }
    rom := { last := romRest.length, cells := Memory.ofBytes (romFirst :: romRest) }
    stream := []
    host := HostSide.initial
    result := .none }

/-- `new(romImage, ramSize)` (70_reset_and_hazards.md R210), with the content of the new RAM image. "a model refuses to
construct a controller with an empty ROM image" (R212). -/
def State.construct (romImage ramInit : List Byte) : Host.Outcome State Fault Refusal :=
  match romImage with
  | [] => .refused .emptyRom
  | b :: bs => .next (State.fresh b bs ramInit)

/-- The machine right after reset: a new controller over the free parameters of `Config` (log entry 2). -/
def State.reset : State :=
  State.fresh Config.romFirst Config.romRest Config.ramInit

end Sys2Proof.Machine
end

