-- ==== Sys2Proof/Machine/Operands.lean ====
section
/-! DEFINITION. The operand forms of the block: the fixed constants (00_scope.md R8, R10, R11), the mode-gated bank bits,
the two offset formulas and the address decoder (40_address_decoder.md R110 to R115, R125). Offsets are natural numbers
and nothing is cut off before the mask (00_scope.md R14). -/

namespace Sys2Proof.Machine

/-- `OPEN_BUS` (00_scope.md R10). Log entry 16. -/
def openBus : Byte := 0xFF

/-- `ROM_OFFSET_MASK` (00_scope.md R11). -/
def romOffsetMask : Nat := 0x3FFF

/-- `RAM_OFFSET_MASK` (00_scope.md R11). -/
def ramOffsetMask : Nat := 0x1FFF

/-- `LOW_BANK_SHIFT` (00_scope.md R11). -/
def lowBankShift : Nat := 14

/-- `SEC_ROM_SHIFT` (00_scope.md R11). -/
def secRomShift : Nat := 19

/-- `SEC_RAM_SHIFT` (00_scope.md R11). -/
def secRamShift : Nat := 13

/-- `ROM_SIZE` (00_scope.md R6). -/
def State.romSize (s : State) : Nat := s.rom.last + 1

/-- `ROM_MASK = ROM_SIZE - 1` (00_scope.md R8). -/
def State.romMask (s : State) : Nat := s.romSize - 1

/-- `RAM_SIZE` (00_scope.md R7). -/
def State.ramSize (s : State) : Nat := s.ram.size

/-- `RAM_MASK = RAM_SIZE - 1`, "defined only when `RAM_SIZE >= 1`" (00_scope.md R8). With `RAM_SIZE = 0` this definition
gives 0, which the spec does not: DESIGN CHOICE, log entry 18. No operation and no port reads it then. -/
def State.ramMask (s : State) : Nat := s.ramSize - 1

/-- `msb2()` (40_address_decoder.md R111). -/
def State.msb2 (s : State) : Nat :=
  match s.mode with
  | .mode0 => 0
  | .mode1 => s.secondaryBankBits.toNat

/-- `romOffset(hi, lo, address)` (40_address_decoder.md R112). -/
def State.romOffset (s : State) (hi lo : Nat) (a : Address) : Nat :=
  ((hi <<< secRomShift) ||| (lo <<< lowBankShift) ||| (a.toNat &&& romOffsetMask)) &&& s.romMask

/-- `ramOffset(address, L)` (40_address_decoder.md R113), defined when `RAM_SIZE >= 1`. With `RAM_SIZE = 0` it gives 0, as
the mask does: DESIGN CHOICE, log entry 18. No operation and no port reads it then. -/
def State.ramOffset (s : State) (a : Address) : Nat :=
  ((s.msb2 <<< secRamShift) ||| (a.toNat &&& ramOffsetMask)) &&& s.ramMask

/-- The ROM offset of a read of the low region (40_address_decoder.md R116): `romOffset(msb2(L), 0, address)`. -/
def State.lowRegionOffset (s : State) (a : Address) : Nat :=
  s.romOffset s.msb2 0 a

/-- The ROM offset of a read of the switchable region (40_address_decoder.md R117):
`romOffset(L.secondaryBankBits, L.lowBankBits, address)`, in both modes. -/
def State.switchableRegionOffset (s : State) (a : Address) : Nat :=
  s.romOffset s.secondaryBankBits.toNat s.lowBankBits.toNat a

/-- The outcome of the address decoder (40_address_decoder.md R114). -/
inductive Decoded where
  | romOff (off : Nat)
  | ramOff (off : Nat)
  | noData
  /-- Window 5 with `RAM_SIZE = 0`: "the window-5 outcome is not defined and rule R123 applies instead". -/
  | ramUndefined
  deriving DecidableEq, Repr

/-- `decode(address, L)` (40_address_decoder.md R114). It never looks at `ramEnabled`. -/
def State.decodeAddress (s : State) (a : Address) : Decoded :=
  let w := window a
  if w = 0 ∨ w = 1 then .romOff (s.lowRegionOffset a)
  else if w = 2 ∨ w = 3 then .romOff (s.switchableRegionOffset a)
  else if w = 5 then (if s.ramSize = 0 then .ramUndefined else .ramOff (s.ramOffset a))
  else .noData

/-- `responds(address, L)` (40_address_decoder.md R125): the spec's own extra output, which no operation reads. -/
def State.responds (s : State) (a : Address) : Bool :=
  let w := window a
  if w = 0 ∨ w = 1 ∨ w = 2 ∨ w = 3 then true
  else if w = 5 then s.ramEnabled && decide (1 ≤ s.ramSize)
  else false

end Sys2Proof.Machine
end

