-- ==== Sys2Proof/Machine/Ops.lean ====
section
/-! DEFINITION. The named operations over the state: the byte at an offset, what an operation returns, the one fault, and
fetching the next operation. The block has no trap entry and no return from one (60_exceptions.md R186, R187): a fault
saves nothing and goes nowhere, and `raise` is all of it. -/

namespace Sys2Proof.Machine

/-- `ROM[off]` (00_scope.md R15). -/
def State.romByte (s : State) (off : Nat) : Byte :=
  s.rom.cells.read off

/-- `RAM[off]` (00_scope.md R15). -/
def State.ramByte (s : State) (off : Nat) : Byte :=
  s.ram.cells.read off

/-- `RAM[off] <- v` (00_scope.md R15). -/
def State.setRamByte (s : State) (off : Nat) (v : Byte) : State :=
  { s with ram := { s.ram with cells := s.ram.cells.write off v } }

/-- The whole RAM image in ascending offset order (42_persistence.md R161). -/
def State.ramBytes (s : State) : List Byte :=
  s.ram.cells.toBytes s.ramSize

/-- Every byte of the RAM image overwritten in ascending offset order (42_persistence.md R163). -/
def State.setRamBytes (s : State) (bs : List Byte) : State :=
  { s with ram := { s.ram with cells := Memory.ofBytes bs } }

/-- The state after an operation that returned `r`. -/
def State.returning (s : State) (r : Result) : State :=
  { s with result := r }

/-- `return v` of a bus read (00_scope.md R15): it changes no latch and no byte (20_memory.md R57). -/
def State.returnByte (s : State) (v : Byte) : State :=
  s.returning (.byte v)

/-- `raise F(info)` (00_scope.md R15, 60_exceptions.md R186): "the model faults and the faulted run has no
continuation". -/
def raise (f : Fault) : Host.Outcome State Fault Refusal :=
  .fault f

/-- An access of window 5 behind the RAM gate (20_memory.md R66): what happens when the RAM is disabled, and what is done
with the offset when it is enabled; `RamAbsent` when there is no RAM (40_address_decoder.md R123). -/
def State.ramAccess (s : State) (a : Address) (disabled : State) (access : Nat → State) :
    Host.Outcome State Fault Refusal :=
  if s.ramEnabled then
    if s.ramSize = 0 then raise (.ramAbsent a) else .next (access (s.ramOffset a))
  else .next disabled

/-- The state in which the next operation is performed: it has left the stream, and what travelled beside its word
stands in `host`. -/
def State.take (s : State) (r : Request) (rest : List Request) : State :=
  { s with stream := rest, host := r.host }

/-- The operation a request names, or the refusal (60_exceptions.md R181, 30_encoding.md R88). -/
def fetch (r : Request) : Except Refusal Instr :=
  match decodeFields r.kind r.address r.data with
  | .ok i => .ok i
  | .error .preconditionViolation => .error .preconditionViolation
  | .error .notAnOperation => .error .notAnOperation

/-- The request that carries a word (30_encoding.md R82). -/
def Request.ofWord (w : Nat) (h : HostSide) : Request :=
  { kind := wordKind w, address := wordAddress w, data := wordData w, host := h }

/-- `read(address)` (30_encoding.md R80). -/
def Request.read (address : Nat) : Request :=
  { kind := 0, address := address, data := 0, host := HostSide.initial }

/-- `write(address, data)` (30_encoding.md R80). -/
def Request.write (address data : Nat) : Request :=
  { kind := 1, address := address, data := data, host := HostSide.initial }

/-- `save`, with what its sink does (30_encoding.md R80, 42_persistence.md R160). -/
def Request.save (sink : Sink) : Request :=
  { kind := 2, address := 0, data := 0, host := { sink := sink, source := .unavailable } }

/-- `load`, with its source (30_encoding.md R80, 42_persistence.md R160). -/
def Request.load (source : Source) : Request :=
  { kind := 3, address := 0, data := 0, host := { sink := .accepts, source := source } }

/-- The stream with `w` as the word of its next operation. What travels beside it is what travelled beside the word it
replaces, or, in an exhausted stream, `h`. -/
def streamWithWord (w : Nat) (h : HostSide) : List Request → List Request
  | [] => [Request.ofWord w h]
  | r :: rest => Request.ofWord w r.host :: rest

end Sys2Proof.Machine
end

