-- ==== Sys2Proof/Machine/BusRead.lean ====
section
/-! DEFINITION. The four bus reads (40_address_decoder.md R116 to R119). -/

namespace Sys2Proof.Machine

/-- `RD.ROM0` (40_address_decoder.md R116). -/
def execRdRom0 (a : Address) (s : State) : Host.Outcome State Fault Refusal :=
  .next (s.returnByte (s.romByte (s.lowRegionOffset a)))

/-- `RD.ROMX` (40_address_decoder.md R117). -/
def execRdRomX (a : Address) (s : State) : Host.Outcome State Fault Refusal :=
  .next (s.returnByte (s.romByte (s.switchableRegionOffset a)))

/-- `RD.NONE` (40_address_decoder.md R119). -/
def execRdNone (_a : Address) (s : State) : Host.Outcome State Fault Refusal :=
  .next (s.returnByte openBus)

/-- `RD.RAM` (40_address_decoder.md R118, R123). -/
def execRdRam (a : Address) (s : State) : Host.Outcome State Fault Refusal :=
  s.ramAccess a (s.returnByte openBus) (fun off => s.returnByte (s.ramByte off))

end Sys2Proof.Machine
end

