-- ==== Sys2Proof/Machine/Flags.lean ====
section
/-! DEFINITION. The block has no status flags and no condition codes (10_state.md R32). What it computes from a data byte is
the value each control write stores in its latch (30_encoding.md R84, 10_state.md R33): these functions. -/

namespace Sys2Proof.Machine

/-- `RAM_ENABLE_MAGIC` (00_scope.md R11). -/
def ramEnableMagic : BitVec 4 := 0xA

/-- `LOW_BANK_MIN` (00_scope.md R11). -/
def lowBankMin : BitVec 5 := 1

/-- `data[3:0] == 0xA` (41_register_state_machine.md R141). -/
def enableOf (d : Byte) : Bool :=
  decide (d.extractLsb' 0 4 = ramEnableMagic)

/-- `max(1, data[4:0])`: "if data[4:0] == 0 then 1 else data[4:0]" (41_register_state_machine.md R142). -/
def lowBankOf (d : Byte) : BitVec 5 :=
  if d.extractLsb' 0 5 = 0 then lowBankMin else d.extractLsb' 0 5

/-- `data[1:0]` (41_register_state_machine.md R143). -/
def secondaryBankOf (d : Byte) : BitVec 2 :=
  d.extractLsb' 0 2

/-- `if data[0] == 1 then MODE_1 else MODE_0` (41_register_state_machine.md R144). -/
def modeOf (d : Byte) : Mode :=
  if d.extractLsb' 0 1 = 1 then .mode1 else .mode0

end Sys2Proof.Machine
end

