-- ==== Sys2Proof/Machine/Control.lean ====
section
/-! DEFINITION. The control writes and the write with no function (41_register_state_machine.md R140 to R149). Each
assigns a function of the data alone to the latch of its window (R148) and looks at no other address bit (R147). -/

namespace Sys2Proof.Machine

/-- `WR.RAMEN` (41_register_state_machine.md R141). -/
def execWrRamen (_a : Address) (d : Byte) (s : State) : Host.Outcome State Fault Refusal :=
  .next ({ s with ramEnabled := enableOf d }.returning .unit)

/-- `WR.BANK1` (41_register_state_machine.md R142). -/
def execWrBank1 (_a : Address) (d : Byte) (s : State) : Host.Outcome State Fault Refusal :=
  .next ({ s with lowBankBits := lowBankOf d }.returning .unit)

/-- `WR.BANK2` (41_register_state_machine.md R143). -/
def execWrBank2 (_a : Address) (d : Byte) (s : State) : Host.Outcome State Fault Refusal :=
  .next ({ s with secondaryBankBits := secondaryBankOf d }.returning .unit)

/-- `WR.MODE` (41_register_state_machine.md R144). -/
def execWrMode (_a : Address) (d : Byte) (s : State) : Host.Outcome State Fault Refusal :=
  .next ({ s with mode := modeOf d }.returning .unit)

/-- `WR.NONE` (41_register_state_machine.md R145): "writes are ignored by this component". -/
def execWrNone (_a : Address) (_d : Byte) (s : State) : Host.Outcome State Fault Refusal :=
  .next (s.returning .unit)

end Sys2Proof.Machine
end

