-- ==== Sys2Proof/Machine/Persistence.lean ====
section
/-! DEFINITION. The two host operations on the RAM image (42_persistence.md R160 to R168). An `IOError` is a result, not a
stop: the state is unchanged and the host may go on (60_exceptions.md R186, R187). -/

namespace Sys2Proof.Machine

/-- What SAVE returns (42_persistence.md R161, R162). Of the sink's content after a failure nothing is said (R162). -/
def saveResult (s : State) : Result :=
  match s.host.sink with
  | .accepts => .saved s.ramBytes
  | .fails => .ioError

/-- `SAVE` (42_persistence.md R161, R162). -/
def execSave (s : State) : Host.Outcome State Fault Refusal :=
  .next (s.returning (saveResult s))

/-- The state after a LOAD from a source (42_persistence.md R163, R164): "the core never truncates or pads a restored
image", and a failed LOAD leaves the image unmodified. -/
def loadFrom (s : State) : Source → State
  | .bytes bs => if bs.length = s.ramSize then (s.setRamBytes bs).returning .loaded else s.returning .ioError
  | .unavailable => s.returning .ioError

/-- `LOAD` (42_persistence.md R163, R164). -/
def execLoad (s : State) : Host.Outcome State Fault Refusal :=
  .next (loadFrom s s.host.source)

end Sys2Proof.Machine
end

