-- ==== Sys2Proof/Machine/RamWrite.lean ====
section
/-! DEFINITION. The data write (40_address_decoder.md R120). -/

namespace Sys2Proof.Machine

/-- `WR.RAM` (40_address_decoder.md R120, R123). A disabled write is dropped. -/
def execWrRam (a : Address) (d : Byte) (s : State) : Host.Outcome State Fault Refusal :=
  s.ramAccess a (s.returning .unit) (fun off => (s.setRamByte off d).returning .unit)

end Sys2Proof.Machine
end

