-- ==== Sys2Proof/Machine/Dispatch.lean ====
section
/-! DEFINITION. The dispatch of 41_register_state_machine.md R150: one arm per operation. -/

namespace Sys2Proof.Machine

/-- "It only dispatches; the meaning of each arm is the rule named beside it" (41_register_state_machine.md R150). -/
def exec (i : Instr) (s : State) : Host.Outcome State Fault Refusal :=
  match i with
  | .rdRom0 a => Sys2Proof.Machine.execRdRom0 a s
  | .rdRomX a => Sys2Proof.Machine.execRdRomX a s
  | .rdNone a => Sys2Proof.Machine.execRdNone a s
  | .rdRam a => Sys2Proof.Machine.execRdRam a s
  | .wrRamen a d => Sys2Proof.Machine.execWrRamen a d s
  | .wrBank1 a d => Sys2Proof.Machine.execWrBank1 a d s
  | .wrBank2 a d => Sys2Proof.Machine.execWrBank2 a d s
  | .wrMode a d => Sys2Proof.Machine.execWrMode a d s
  | .wrNone a d => Sys2Proof.Machine.execWrNone a d s
  | .wrRam a d => Sys2Proof.Machine.execWrRam a d s
  | .save => Sys2Proof.Machine.execSave s
  | .load => Sys2Proof.Machine.execLoad s

end Sys2Proof.Machine
end

