-- ==== Sys2Proof/Machine/Step.lean ====
section
/-! DEFINITION. One step of the machine (41_register_state_machine.md R150): the next operation of the externally supplied
list is performed, completely, before the next is looked at (20_memory.md R59, 10_state.md R31). Log entries 4 and 17. -/

namespace Sys2Proof.Machine

/-- One step. An exhausted list is the end of the run (10_state.md R31). -/
def step (s : State) : Host.Outcome State Fault Refusal :=
  match s.stream with
  | [] => .refused .streamExhausted
  | r :: rest =>
    match fetch r with
    | .error e => .refused e
    | .ok i => exec i (s.take r rest)

/-- The state with the word `w` as that of the next operation. Log entry 4. -/
def State.withFetchWord (s : State) (_nbits w : Nat) : State :=
  { s with stream := streamWithWord w s.host s.stream }

end Sys2Proof.Machine
end

