-- ==== Sys2Proof/Machine/Ports.lean ====
section
/-! DEFINITION. The output ports of 30_encoding.md R81 during one operation, as functions of the operation and the state it
starts in: they are wires, not state (10_state.md R28). The input ports are the fields of `Request`; `rom_data` and
`ram_rdata` are `State.romByte` and `State.ramByte`; `reset` is `State.construct`. Log entry 14. -/

namespace Sys2Proof.Machine

/-- The output ports. A port that the spec gives a value only in some operations is `none` in the others (DESIGN CHOICE,
log entry 14). -/
structure Ports where
  rdata : Option Byte
  responds : Bool
  romOff : Option Nat
  ramOff : Option Nat
  ramSel : Bool
  ramWe : Bool
  ramWdata : Option Byte
  deriving DecidableEq, Repr

/-- Nothing is selected: `rdata` is "`OPEN_BUS` when nothing is selected", outside a read too (DEDUCED, log entry 14). -/
def Ports.idle : Ports :=
  { rdata := some openBus, responds := false, romOff := none, ramOff := none, ramSel := false, ramWe := false,
    ramWdata := none }

/-- `ram_off`: "the masked RAM offset presented to the RAM image on an access to window 5"; with `RAM_SIZE = 0` "no
offset is computed" (40_address_decoder.md R123). -/
def State.ramOffPort (s : State) (a : Address) : Option Nat :=
  if s.ramSize = 0 then none else some (s.ramOffset a)

/-- `rdata` of a read of window 5. The read that faults, with the RAM enabled and `RAM_SIZE = 0`, has no result
(40_address_decoder.md R123), and something is selected, so R81 gives `rdata` nothing there: it has no value, 0xFF
neither. DESIGN CHOICE, log entry 14. -/
def State.ramReadPort (s : State) (a : Address) : Option Byte :=
  if s.ramEnabled then
    if s.ramSize = 0 then none else some (s.ramByte (s.ramOffset a))
  else some openBus

/-- `rdata` of a write to window 5: with the RAM enabled something is selected and nothing is read, so R81 gives `rdata`
nothing. DESIGN CHOICE, log entry 14. -/
def State.ramWriteRdata (s : State) : Option Byte :=
  if s.ramEnabled then none else some openBus

/-- The output ports during an operation (30_encoding.md R81). -/
def ports (i : Instr) (s : State) : Ports :=
  match i with
  | .rdRom0 a =>
    { Ports.idle with
      rdata := some (s.romByte (s.lowRegionOffset a)), responds := s.responds a, romOff := some (s.lowRegionOffset a) }
  | .rdRomX a =>
    { Ports.idle with
      rdata := some (s.romByte (s.switchableRegionOffset a)), responds := s.responds a
      romOff := some (s.switchableRegionOffset a) }
  | .rdNone a => { Ports.idle with responds := s.responds a }
  | .rdRam a =>
    { Ports.idle with
      rdata := s.ramReadPort a, responds := s.responds a, ramOff := s.ramOffPort a, ramSel := s.ramEnabled }
  | .wrRamen _ d => { Ports.idle with ramWdata := some d }
  | .wrBank1 _ d => { Ports.idle with ramWdata := some d }
  | .wrBank2 _ d => { Ports.idle with ramWdata := some d }
  | .wrMode _ d => { Ports.idle with ramWdata := some d }
  | .wrNone _ d => { Ports.idle with ramWdata := some d }
  | .wrRam a d =>
    { Ports.idle with
      rdata := s.ramWriteRdata, ramOff := s.ramOffPort a, ramSel := s.ramEnabled, ramWe := s.ramEnabled, ramWdata := some d }
  | .save => Ports.idle
  | .load => Ports.idle

end Sys2Proof.Machine
end

