-- ==== Sys2Proof/WellFormed.lean ====
section
/-! DEFINITION. When an operation is well formed: its address lies in a window its mnemonic names. The windows are
written here as the address ranges of 20_memory.md R51, independently of the bits [15:13] the decoder looks at. -/

namespace Sys2Proof

/-- The address lies in `lo` to `hi`, both included. -/
def Address.within (lo hi : Nat) (a : Address) : Bool :=
  decide (lo ≤ a.toNat) && decide (a.toNat ≤ hi)

/-- The address lies in window 4, 6 or 7 (20_memory.md R51). -/
def Address.noFunction (a : Address) : Bool :=
  Address.within 0x8000 0x9FFF a || Address.within 0xC000 0xFFFF a

/-- The operand line of each operation's rule, and the "checked comment" of 30_encoding.md R90: "the address must lie in
the window the mnemonic names". Data bytes have no illegal value (R86). -/
def Instr.wellFormed : Instr → Bool
  | .rdRom0 a => Address.within 0x0000 0x3FFF a
  | .rdRomX a => Address.within 0x4000 0x7FFF a
  | .rdNone a => Address.noFunction a
  | .rdRam a => Address.within 0xA000 0xBFFF a
  | .wrRamen a _ => Address.within 0x0000 0x1FFF a
  | .wrBank1 a _ => Address.within 0x2000 0x3FFF a
  | .wrBank2 a _ => Address.within 0x4000 0x5FFF a
  | .wrMode a _ => Address.within 0x6000 0x7FFF a
  | .wrNone a _ => Address.noFunction a
  | .wrRam a _ => Address.within 0xA000 0xBFFF a
  | .save => true
  | .load => true

end Sys2Proof
end

