-- ==== Sys2Proof/Machine/Pseudo.lean ====
section
/-! DEFINITION. The seven pseudo-operations, "each a fixed expansion into the operations" (30_encoding.md R91), and the
lines of a script (R90), as data: what each line adds to the stream of operations. The letters a script is written with are
notation only (92_eei_decisions.md D17) and are not modelled. -/

namespace Sys2Proof.Machine

/-- The pseudo-operations and their operands (30_encoding.md R91). -/
inductive Pseudo where
  | ramOn
  | ramOff
  | bank1 (n : BitVec 5)
  | bank2 (n : BitVec 2)
  | mode (m : Mode)
  | romBank (n : BitVec 7)
  | ramBank (n : BitVec 2)
  deriving DecidableEq, Repr

/-- The bit a mode is written with: "as a bit they are 0 and 1" (00_scope.md R15). -/
def Mode.toBit : Mode → Nat
  | .mode0 => 0
  | .mode1 => 1

/-- The column "expansion" of 30_encoding.md R91. -/
def Pseudo.expand : Pseudo → List Request
  | .ramOn => [Request.write 0x0000 0x0A]
  | .ramOff => [Request.write 0x0000 0x00]
  | .bank1 n => [Request.write 0x2000 n.toNat]
  | .bank2 n => [Request.write 0x4000 n.toNat]
  | .mode m => [Request.write 0x6000 m.toBit]
  | .romBank n => [Request.write 0x2000 (n.extractLsb' 0 5).toNat, Request.write 0x4000 (n.extractLsb' 5 2).toNat]
  | .ramBank n => [Request.write 0x4000 n.toNat]

/-- A line of a script (30_encoding.md R90). -/
inductive ScriptLine where
  /-- `RD <addr>`. -/
  | rd (address : Nat)
  /-- `WR <addr>, <data>`. -/
  | wr (address data : Nat)
  /-- `SAVE`, with what the sink does. -/
  | save (sink : Sink)
  /-- `LOAD <bytes>` or `LOAD IOError`. -/
  | load (source : Source)
  /-- A specific mnemonic "in place of RD or WR". -/
  | named (i : Instr)
  /-- A pseudo-operation (R91). -/
  | pseudo (p : Pseudo)
  deriving DecidableEq, Repr

/-- The operations a line stands for, if it is a line at all: a specific mnemonic "is then a checked comment: the address
must lie in the window the mnemonic names" (30_encoding.md R90). -/
def ScriptLine.expand : ScriptLine → Option (List Request)
  | .rd a => some [Request.read a]
  | .wr a d => some [Request.write a d]
  | .save sink => some [Request.save sink]
  | .load source => some [Request.load source]
  | .named i => if i.wellFormed ∧ i ≠ .save ∧ i ≠ .load then some [Request.ofWord (encode i).toNat HostSide.initial] else none
  | .pseudo p => some p.expand

end Sys2Proof.Machine
end

