-- ==== Sys2Proof/Safety.lean ====
section
/-! DEFINITION. What counts as a good state, in the terms the statements use. -/

namespace Sys2Proof.Machine

/-- The invariant of the machine: the low bank latch is never 0 (10_state.md R29), and both images are in their canonical
form within their sizes. `secondaryBankBits`, `mode` and `ramEnabled` are legal by their types (R30). -/
abbrev State.Inv (s : State) : Prop :=
  s.lowBankBits ≠ 0 ∧ s.ram.cells.wf s.ramSize = true ∧ s.rom.cells.wf s.romSize = true

/-- A power of two, 1 included (00_scope.md R9). -/
def IsPow2 (n : Nat) : Prop :=
  ∃ k : Nat, n = 2 ^ k

/-- The named premise `Pow2Sizes` (00_scope.md R9). -/
def State.Pow2Sizes (s : State) : Prop :=
  IsPow2 s.romSize ∧ IsPow2 s.ramSize

/-- The block has a RAM, so no bus operation can stop (60_exceptions.md R180: "No bus read or write ever fails when
`RAM_SIZE >= 1`"). -/
abbrev State.HasRam (s : State) : Prop :=
  1 ≤ s.ramSize

/-- The five items of 10_state.md R20 and the constant of R26, without the model's own fields. -/
abbrev State.sameBlock (s t : State) : Prop :=
  t.ramEnabled = s.ramEnabled ∧ t.mode = s.mode ∧ t.lowBankBits = s.lowBankBits ∧
    t.secondaryBankBits = s.secondaryBankBits ∧ t.ram = s.ram ∧ t.rom = s.rom

end Sys2Proof.Machine
end

