-- ==== Sys2Proof/Certificates/Slice0/Obligations.lean ====
section
/-! DEFINITION. The statements for the provers. A statement that gives the whole next state as `{ s with … }` says with it
the frame: every latch, every byte of both images and every field of the model's own that it does not name is as before.
`result` is what the operation returns to its caller (log entry 7). -/

open Sys2Proof Sys2Proof.Machine

/-! ## Words -/

/-- Words written out from the encoding of 30_encoding.md sections 2 and 3 (the vectors V8 of 95_test_vectors.md). The
26-bit packing is the spec's own decision D2 (log entry 13). -/
def Obligations.SpecWordsDecode : Prop :=
  decodeWord 0x0000000 = .ok (.rdRom0 0x0000) ∧ decodeWord 0x03FFF00 = .ok (.rdRom0 0x3FFF) ∧
  decodeWord 0x07FFFAB = .ok (.rdRomX 0x7FFF) ∧ decodeWord 0x0A10000 = .ok (.rdRam 0xA100) ∧
  decodeWord 0x0800000 = .ok (.rdNone 0x8000) ∧ decodeWord 0x0E00000 = .ok (.rdNone 0xE000) ∧
  decodeWord 0x1000A0A = .ok (.wrRamen 0x000A 0x0A) ∧ decodeWord 0x1200003 = .ok (.wrBank1 0x2000 0x03) ∧
  decodeWord 0x1400002 = .ok (.wrBank2 0x4000 0x02) ∧ decodeWord 0x1600001 = .ok (.wrMode 0x6000 0x01) ∧
  decodeWord 0x1A10055 = .ok (.wrRam 0xA100 0x55) ∧ decodeWord 0x1800000 = .ok (.wrNone 0x8000 0x00) ∧
  decodeWord 0x2000000 = .ok .save ∧ decodeWord 0x3FFFFFF = .ok .load

/-- Decode and encode agree on every well-formed operation, with every operand (30_encoding.md sections 2 and 3). -/
def Obligations.DecodeOfEncode : Prop :=
  ∀ i : Instr, i.wellFormed = true → decodeWord (encode i).toNat = .ok i

/-- The other direction: every 26-bit word decodes to a well-formed operation, whose encoding is the word with its
ignored fields zero: the data of a read, the address and the data of SAVE and LOAD (30_encoding.md section 2). -/
def Obligations.EncodeOfDecodeIsCanonical : Prop :=
  ∀ w : BitVec 26, ∃ i : Instr, decodeWord w.toNat = .ok i ∧ i.wellFormed = true ∧
    encode i = (if w.toNat < 2 ^ 24 then w &&& 0x3FFFF00 else if w.toNat < 2 ^ 25 then w else w &&& 0x3000000)

/-- The fourteen rows of the match and mask table are pairwise disjoint and cover all words, and the row that selects a
word carries the mnemonic of the operation the word decodes to (30_encoding.md section 3). -/
def Obligations.EachWordHasOneRow : Prop :=
  ∀ w : BitVec 26, ∃ i : Instr, decodeWord w.toNat = .ok i ∧
    (opcodeRows.filter (rowSelects w)).map (fun r => r.mnemonic) = [i.mnemonic]

/-- Whatever is decoded is well formed: its address lies in a window its mnemonic names. -/
def Obligations.DecodedIsWellFormed : Prop :=
  ∀ (kind address data : Nat) (i : Instr), decodeFields kind address data = .ok i → i.wellFormed = true

/-- A number that is no 26-bit word decodes to nothing (the refusal's name is the model's, log entry 5). -/
def Obligations.NoOperationAbove26Bits : Prop :=
  ∀ w : Nat, 2 ^ 26 ≤ w → decodeWord w = .error .notAnOperation

/-! ## The step -/

/-- One step performs the next operation of the stream, and nothing else: the operation has left the stream and what
travelled beside its word stands in `host` (log entries 4 and 6). -/
def Obligations.StepPerformsTheNextOperation : Prop :=
  ∀ (s : State) (r : Request) (rest : List Request) (i : Instr), s.stream = r :: rest →
    decodeFields r.kind r.address r.data = .ok i → step s = exec i { s with stream := rest, host := r.host }

/-- A word placed by the host is the one the very next step performs (log entry 4). -/
def Obligations.FetchedWordIsPerformed : Prop :=
  ∀ (s : State) (nbits w : Nat) (i : Instr), decodeTableWord nbits w = some i →
    (s.stream = [] → step (s.withFetchWord nbits w) = exec i s) ∧
    (∀ r rest, s.stream = r :: rest →
      step (s.withFetchWord nbits w) = exec i { s with stream := rest, host := r.host })

/-- The step of the whole machine, arm by arm, by the address ranges of the windows (41_register_state_machine.md R150),
and that no operation chooses the next one: it leaves the stream as it is. The kinds 0 to 3 are read, write, save and load
(the spec's decision D2, log entry 13). -/
def Obligations.StepDispatchesByWindow : Prop :=
  (∀ (i : Instr) (s t : State), exec i s = .next t → t.stream = s.stream) ∧
  ∀ (s : State) (a : Address) (d : Byte) (h : HostSide) (rest : List Request) (x y : Nat),
    let u : State := { s with stream := rest, host := h }
    let rd : State := { s with stream := ⟨0, a.toNat, x, h⟩ :: rest }
    let wr : State := { s with stream := ⟨1, a.toNat, d.toNat, h⟩ :: rest }
    (a.toNat ≤ 0x3FFF → step rd = exec (.rdRom0 a) u) ∧
    (0x4000 ≤ a.toNat ∧ a.toNat ≤ 0x7FFF → step rd = exec (.rdRomX a) u) ∧
    (0xA000 ≤ a.toNat ∧ a.toNat ≤ 0xBFFF → step rd = exec (.rdRam a) u) ∧
    ((0x8000 ≤ a.toNat ∧ a.toNat ≤ 0x9FFF) ∨ 0xC000 ≤ a.toNat → step rd = exec (.rdNone a) u) ∧
    (a.toNat ≤ 0x1FFF → step wr = exec (.wrRamen a d) u) ∧
    (0x2000 ≤ a.toNat ∧ a.toNat ≤ 0x3FFF → step wr = exec (.wrBank1 a d) u) ∧
    (0x4000 ≤ a.toNat ∧ a.toNat ≤ 0x5FFF → step wr = exec (.wrBank2 a d) u) ∧
    (0x6000 ≤ a.toNat ∧ a.toNat ≤ 0x7FFF → step wr = exec (.wrMode a d) u) ∧
    (0xA000 ≤ a.toNat ∧ a.toNat ≤ 0xBFFF → step wr = exec (.wrRam a d) u) ∧
    ((0x8000 ≤ a.toNat ∧ a.toNat ≤ 0x9FFF) ∨ 0xC000 ≤ a.toNat → step wr = exec (.wrNone a d) u) ∧
    step { s with stream := ⟨2, x, y, h⟩ :: rest } = exec .save u ∧
    step { s with stream := ⟨3, x, y, h⟩ :: rest } = exec .load u

/-- A read of an address wider than 16 bits, and a write of an address wider than 16 bits or of data wider than 8 bits,
is refused, and nothing is cut off. That it is a refusal is the spec's decision D10 (log entry 5). -/
def Obligations.WideOperandsAreRefused : Prop :=
  ∀ (s : State) (rest : List Request) (h : HostSide) (x y : Nat),
    (2 ^ 16 ≤ x → step { s with stream := ⟨0, x, y, h⟩ :: rest } = .refused .preconditionViolation) ∧
    (2 ^ 16 ≤ x ∨ 2 ^ 8 ≤ y → step { s with stream := ⟨1, x, y, h⟩ :: rest } = .refused .preconditionViolation)

/-- The run ends when the list is exhausted, and the step says so (the model's choice, log entry 4). -/
def Obligations.ExhaustedStreamEndsTheRun : Prop :=
  ∀ s : State, step s = .refused .streamExhausted ↔ s.stream = []

/-! ## Construction and reset -/

/-- What construction does, for every ROM image of at least one byte and every `RAM_INIT`: the sizes, the masks
(`RAM_MASK` where it is defined, with `RAM_SIZE >= 1`), the latches, the bytes of both images; and that no step changes the
parameters afterwards (70_reset_and_hazards.md R211). That a claim holds for every `RAM_INIT` is the spec's decision D5 (log entry 2). -/
def Obligations.ConstructionSetsTheState : Prop :=
  (∀ (rom init : List Byte), rom ≠ [] → ∃ t, State.construct rom init = .next t ∧
    t.romSize = rom.length ∧ t.ramSize = init.length ∧ t.romMask = rom.length - 1 ∧
    (1 ≤ init.length → t.ramMask = init.length - 1) ∧
    t.ramEnabled = false ∧ t.mode = .mode0 ∧ t.lowBankBits = 1 ∧ t.secondaryBankBits = 0 ∧
    (∀ x, x < rom.length → rom[x]? = some (t.romByte x)) ∧ (∀ x, x < init.length → init[x]? = some (t.ramByte x))) ∧
  (∀ s t : State, step s = .next t → t.rom = s.rom ∧ t.ramSize = s.ramSize)

/-- An empty ROM image is refused (the spec's decision D7, log entry 11). -/
def Obligations.EmptyRomIsRefused : Prop :=
  ∀ init : List Byte, State.construct [] init = .refused .emptyRom

/-- The latches of `State.reset` (10_state.md section 2), and that it is a construction over the free parameters
(log entry 2). -/
def Obligations.ResetLatches : Prop :=
  State.reset.ramEnabled = false ∧ State.reset.mode = .mode0 ∧ State.reset.lowBankBits = 1 ∧
  State.reset.secondaryBankBits = 0 ∧
  State.construct (Config.romFirst :: Config.romRest) Config.ramInit = .next State.reset

/-- What the bus master sees straight after construction, for every ROM image and `RAM_INIT`
(70_reset_and_hazards.md section 1). That the sentinel is 0xFF is the spec's decision D4 (log entry 16). -/
def Obligations.ReadsAfterConstruction : Prop :=
  ∀ (rom init : List Byte) (t : State) (a : Address), State.construct rom init = .next t →
    (∃ u v, exec (.rdRom0 a) t = .next u ∧ u.result = .byte v ∧
      rom[(a.toNat % 0x4000) &&& (rom.length - 1)]? = some v) ∧
    (∃ u v, exec (.rdRomX a) t = .next u ∧ u.result = .byte v ∧
      rom[(0x4000 + a.toNat % 0x4000) &&& (rom.length - 1)]? = some v) ∧
    exec (.rdRam a) t = .next { t with result := .byte 0xFF } ∧
    exec (.rdNone a) t = .next { t with result := .byte 0xFF }

/-- The invariant holds of every new controller, the reset state among them. -/
def Obligations.NewControllerMeetsInvariant : Prop :=
  (∀ (b : Byte) (bs init : List Byte), (State.fresh b bs init).Inv) ∧ State.reset.Inv

/-! ## Invariants -/

/-- Every step keeps the invariant: the low bank latch is never 0, both images stay in canonical form. -/
def Obligations.StepKeepsInvariant : Prop :=
  ∀ s t : State, s.Inv → step s = .next t → t.Inv

/-- The low bank latch is 1 to 31 in every state that a run of any operations reaches from any construction, and every
step from a state where it is so keeps it so (10_state.md R29). -/
def Obligations.LowBankIsNeverZero : Prop :=
  (∀ (rom init : List Byte) (ops : List Request) (k : Nat) (s t : State), State.construct rom init = .next s →
    core.run k { s with stream := ops } = .next t → 1 ≤ t.lowBankBits.toNat ∧ t.lowBankBits.toNat ≤ 31) ∧
  (∀ s t : State, 1 ≤ s.lowBankBits.toNat → step s = .next t →
    1 ≤ t.lowBankBits.toNat ∧ t.lowBankBits.toNat ≤ 31)

/-! ## Bus reads -/

/-- `RD.ROM0` (40_address_decoder.md R116): the byte, and that nothing else changes. The corner cases: the secondary bits
are masked away when the ROM has at most 0x80000 bytes, and in `MODE_0` they do not appear. -/
def Obligations.RdRom0ReadsTheLowRegion : Prop :=
  ∀ (a : Address) (s : State),
    let hi := if s.mode = .mode1 then s.secondaryBankBits.toNat else 0
    exec (.rdRom0 a) s =
      .next { s with result := .byte (s.romByte ((hi * 0x80000 + a.toNat % 0x4000) &&& (s.romSize - 1))) } ∧
    (s.mode = .mode0 ∨ s.romSize ≤ 0x80000 →
      exec (.rdRom0 a) s = .next { s with result := .byte (s.romByte ((a.toNat % 0x4000) &&& (s.romSize - 1))) })

/-- `RD.ROMX` (40_address_decoder.md R117): the byte, in both modes, and that nothing else changes. While the low bank
latch is not 0, as it never is (R29), the unmasked bank is none of 0, 32, 64, 96. -/
def Obligations.RdRomXReadsTheSwitchableRegion : Prop :=
  ∀ (a : Address) (s : State),
    let bank := s.secondaryBankBits.toNat * 32 + s.lowBankBits.toNat
    exec (.rdRomX a) s =
      .next { s with result := .byte (s.romByte ((bank * 0x4000 + a.toNat % 0x4000) &&& (s.romSize - 1))) } ∧
    (s.lowBankBits ≠ 0 → bank % 32 ≠ 0)

/-- `RD.NONE` (40_address_decoder.md section 2): 0xFF for every address and every state, and nothing else changes. That
the sentinel is 0xFF is the spec's decision D4 (log entry 16). -/
def Obligations.RdNoneReadsTheSentinel : Prop :=
  ∀ (a : Address) (s : State), exec (.rdNone a) s = .next { s with result := .byte 0xFF }

/-- `RD.RAM` (40_address_decoder.md section 2): the sentinel while the RAM is disabled, the byte at the offset while it is
enabled, and nothing else changes; with no RAM and the RAM enabled it stops, which is the spec's decision D6
(log entry 8). That the sentinel is 0xFF is its decision D4 (log entry 16). -/
def Obligations.RdRamReadsBehindTheGate : Prop :=
  ∀ (a : Address) (s : State),
    let bank := if s.mode = .mode1 then s.secondaryBankBits.toNat else 0
    (s.ramEnabled = false → exec (.rdRam a) s = .next { s with result := .byte 0xFF }) ∧
    (s.ramEnabled = true → 1 ≤ s.ramSize → exec (.rdRam a) s =
      .next { s with result := .byte (s.ramByte ((bank * 0x2000 + a.toNat % 0x2000) &&& (s.ramSize - 1))) }) ∧
    (s.ramEnabled = true → s.ramSize = 0 → exec (.rdRam a) s = .fault (.ramAbsent a))

/-! ## Writes -/

/-- `WR.RAM` (40_address_decoder.md section 3): dropped while the RAM is disabled; else the byte at the offset, computed as
the meaning computes it, and every other byte, every latch and the ROM as before. With no RAM and the RAM enabled it
stops, which is the spec's decision D6 (log entry 8). -/
def Obligations.WrRamWritesBehindTheGate : Prop :=
  ∀ (a : Address) (d : Byte) (s : State),
    let bank := if s.mode = .mode1 then s.secondaryBankBits.toNat else 0
    let off := (bank * 0x2000 + a.toNat % 0x2000) &&& (s.ramSize - 1)
    (s.ramEnabled = false → exec (.wrRam a d) s = .next { s with result := .unit }) ∧
    (s.ramEnabled = true → 1 ≤ s.ramSize → s.Inv → ∃ t, exec (.wrRam a d) s = .next t ∧
      s.ramOffset a = off ∧ t.ramByte off = d ∧ (∀ x, x ≠ off → t.ramByte x = s.ramByte x) ∧
      t.ramSize = s.ramSize ∧ (∀ x, t.romByte x = s.romByte x) ∧
      t = { s with ram := t.ram, result := .unit }) ∧
    (s.ramEnabled = true → s.ramSize = 0 → exec (.wrRam a d) s = .fault (.ramAbsent a))

/-- `WR.RAMEN` (41_register_state_machine.md R141), whatever the address and the state. -/
def Obligations.WrRamenComparesTheNibble : Prop :=
  ∀ (a : Address) (d : Byte) (s : State),
    exec (.wrRamen a d) s = .next { s with ramEnabled := decide (d.toNat % 16 = 0xA), result := .unit }

/-- `WR.BANK1` (41_register_state_machine.md R142), whatever the address and the state. -/
def Obligations.WrBank1ClampsTheLowBank : Prop :=
  ∀ (a : Address) (d : Byte) (s : State),
    exec (.wrBank1 a d) s =
      .next { s with lowBankBits := BitVec.ofNat 5 (max 1 (d.toNat % 32)), result := .unit }

/-- `WR.BANK2` (41_register_state_machine.md R143), whatever the address and the state. -/
def Obligations.WrBank2StoresTwoBits : Prop :=
  ∀ (a : Address) (d : Byte) (s : State),
    exec (.wrBank2 a d) s = .next { s with secondaryBankBits := BitVec.ofNat 2 (d.toNat % 4), result := .unit }

/-- `WR.MODE` (41_register_state_machine.md R144), whatever the address and the state. -/
def Obligations.WrModeTakesBitZero : Prop :=
  ∀ (a : Address) (d : Byte) (s : State),
    exec (.wrMode a d) s =
      .next { s with mode := if d.toNat % 2 = 1 then .mode1 else .mode0, result := .unit }

/-- `WR.NONE` (41_register_state_machine.md R145): "The state after the operation equals the state before it". -/
def Obligations.WrNoneChangesNothing : Prop :=
  ∀ (a : Address) (d : Byte) (s : State), exec (.wrNone a d) s = .next { s with result := .unit }

/-! ## Persistence -/

/-- `SAVE`, success (42_persistence.md R161): `RAM_SIZE` bytes in ascending offset order, whatever the latches hold. -/
def Obligations.SaveEmitsTheImage : Prop :=
  ∀ s : State, s.host.sink = .accepts → ∃ bs : List Byte, exec .save s = .next { s with result := .saved bs } ∧
    bs.length = s.ramSize ∧ ∀ x, x < s.ramSize → bs[x]? = some (s.ramByte x)

/-- `SAVE`, failure (42_persistence.md section 2): `IOError`, and the state of the block is unchanged. Nothing is said of
the sink (the spec's decision D13, log entry 10). -/
def Obligations.FailedSaveChangesNothing : Prop :=
  ∀ s : State, s.host.sink = .fails → exec .save s = .next { s with result := .ioError }

/-- `LOAD`, success (42_persistence.md R163): every byte of the image is overwritten, and nothing else changes. -/
def Obligations.LoadReplacesTheImage : Prop :=
  ∀ (s : State) (bs : List Byte), s.host.source = .bytes bs → bs.length = s.ramSize →
    ∃ t, exec .load s = .next t ∧ (∀ x, x < s.ramSize → bs[x]? = some (t.ramByte x)) ∧ t.ramSize = s.ramSize ∧
      t = { s with ram := t.ram, result := .loaded }

/-- `LOAD`, failure (42_persistence.md section 3): `IOError`, and the image and the latches as they were. That the image
is unmodified is the spec's decision D12 (log entry 9), and that a decode error is `Unavailable` its decision D14
(log entry 10). -/
def Obligations.FailedLoadChangesNothing : Prop :=
  ∀ s : State,
    (s.host.source = .unavailable → exec .load s = .next { s with result := .ioError }) ∧
    (∀ bs, s.host.source = .bytes bs → bs.length ≠ s.ramSize →
      exec .load s = .next { s with result := .ioError })

/-- "SAVE and LOAD never read or write a latch" (42_persistence.md R166): with any other latch values they do the same to
everything else and leave those values as they are. -/
def Obligations.SaveAndLoadIgnoreTheLatches : Prop :=
  ∀ (s : State) (en : Bool) (m : Mode) (lo : BitVec 5) (sec : BitVec 2), ∀ i ∈ [Instr.save, Instr.load],
    ∃ t, exec i s = .next t ∧ t.ramEnabled = s.ramEnabled ∧ t.mode = s.mode ∧ t.lowBankBits = s.lowBankBits ∧
      t.secondaryBankBits = s.secondaryBankBits ∧
      exec i { s with ramEnabled := en, mode := m, lowBankBits := lo, secondaryBankBits := sec } =
        .next { t with ramEnabled := en, mode := m, lowBankBits := lo, secondaryBankBits := sec }

/-- The round trip (42_persistence.md section 4): the bytes of a successful save, loaded into any controller with a RAM
of the same size, restore the image, and the latches of that controller are unaffected. -/
def Obligations.SaveThenLoadRestoresTheImage : Prop :=
  ∀ (s t u : State) (bs : List Byte), s.Inv → exec .save s = .next t → t.result = .saved bs →
    u.ramSize = s.ramSize → u.host.source = .bytes bs →
    ∃ v, exec .load u = .next v ∧ v.result = .loaded ∧ v.ram = s.ram ∧ v = { u with ram := v.ram, result := .loaded }

/-! ## Offsets and banks -/

/-- Every offset the decoder gives lies inside its image, for every size and every latch value, and the decoder gives one
outcome of the right kind for every address (40_address_decoder.md section 1). -/
def Obligations.OffsetsStayInsideTheImages : Prop :=
  ∀ (s : State) (a : Address),
    (∀ o, s.decodeAddress a = .romOff o → o < s.romSize ∧ a.toNat < 0x8000) ∧
    (∀ o, s.decodeAddress a = .ramOff o → o < s.ramSize ∧ a.toNat / 0x2000 = 5) ∧
    (s.decodeAddress a = .noData ↔ a.toNat / 0x2000 = 4 ∨ 6 ≤ a.toNat / 0x2000) ∧
    (s.decodeAddress a = .ramUndefined ↔ a.toNat / 0x2000 = 5 ∧ s.ramSize = 0)

/-- A bus read does what the address decoder says, with the RAM gate applied by the operation, and a bus write uses only
the decoder's RAM outcome (40_address_decoder.md section 1). That the gate sits outside the decoder is the spec's decision
D16, the fault its decision D6 (log entry 8), and the sentinel 0xFF its decision D4 (log entry 16). -/
def Obligations.AccessesFollowTheDecoder : Prop :=
  ∀ (s : State) (a : Address) (d : Byte),
    exec (decodeRead a) s =
      (match s.decodeAddress a with
      | .romOff o => .next { s with result := .byte (s.romByte o) }
      | .ramOff o => .next { s with result := .byte (if s.ramEnabled then s.ramByte o else 0xFF) }
      | .noData => .next { s with result := .byte 0xFF }
      | .ramUndefined =>
        if s.ramEnabled then .fault (.ramAbsent a) else .next { s with result := .byte 0xFF }) ∧
    (∀ t, exec (decodeWrite a d) s = .next t → t.ram ≠ s.ram →
      s.ramEnabled = true ∧ ∃ o, s.decodeAddress a = .ramOff o ∧ t.ram.cells = s.ram.cells.write o d)

/-- Under `Pow2Sizes` the masks are remainders: the offsets wrap around the images (00_scope.md section 3, 20_memory.md
section 3). -/
def Obligations.OffsetsWrapModuloTheSizes : Prop :=
  ∀ (s : State) (a : Address), s.Pow2Sizes →
    s.lowRegionOffset a = (s.msb2 * 0x80000 + a.toNat % 0x4000) % s.romSize ∧
    s.switchableRegionOffset a =
      (s.secondaryBankBits.toNat * 0x80000 + s.lowBankBits.toNat * 0x4000 + a.toNat % 0x4000) % s.romSize ∧
    s.ramOffset a = (s.msb2 * 0x2000 + a.toNat % 0x2000) % s.ramSize

/-- The physical banks after masking, with a ROM of `nb` whole banks (40_address_decoder.md section 4). -/
def Obligations.PhysicalRomBanks : Prop :=
  ∀ (s : State) (a : Address) (nb : Nat), IsPow2 s.romSize → s.romSize = nb * 0x4000 →
    s.switchableRegionOffset a =
      (s.secondaryBankBits.toNat * 32 + s.lowBankBits.toNat) % nb * 0x4000 + a.toNat % 0x4000 ∧
    s.lowRegionOffset a = s.msb2 * 32 % nb * 0x4000 + a.toNat % 0x4000

/-- Which physical banks the switchable region can show: with 32, 64 or 128 banks never bank 0, 32, 64 or 96; with at most
16 banks bank 0 whenever the low bank is a multiple of their number (40_address_decoder.md section 4, 90_conflicts.md
C4). -/
def Obligations.SwitchableRegionAndBankZero : Prop :=
  ∀ (s : State) (a : Address) (nb : Nat), s.Inv → s.romSize = nb * 0x4000 →
    (nb = 32 ∨ nb = 64 ∨ nb = 128 → s.switchableRegionOffset a / 0x4000 % 32 ≠ 0) ∧
    (nb = 1 ∨ nb = 2 ∨ nb = 4 ∨ nb = 8 ∨ nb = 16 →
      (s.switchableRegionOffset a / 0x4000 = 0 ↔ s.lowBankBits.toNat % nb = 0))

/-- Write then read (40_address_decoder.md section 4): a read of any address that reaches the same offset returns the byte
written, and a read of any other returns what it returned before. -/
def Obligations.WriteThenReadReturnsTheByte : Prop :=
  ∀ (s t : State) (a b : Address) (d : Byte), s.Inv → 1 ≤ s.ramSize → s.ramEnabled = true →
    exec (.wrRam a d) s = .next t →
    exec (.rdRam b) t =
      .next { t with result := .byte (if s.ramOffset b = s.ramOffset a then d else s.ramByte (s.ramOffset b)) }

/-! ## What changes what -/

/-- Reads have no side effects (20_memory.md R57): no latch, no byte and nothing else but the result changes; the same
read done again gives the same state, its result among it; and the result is a function of the address, the latches and
the images. -/
def Obligations.ReadsHaveNoSideEffects : Prop :=
  ∀ a : Address, ∀ i ∈ [Instr.rdRom0 a, Instr.rdRomX a, Instr.rdRam a, Instr.rdNone a],
    ∀ s t : State, exec i s = .next t →
      t = { s with result := t.result } ∧ exec i t = .next t ∧
      ∀ u : State, s.sameBlock u → exec i u = .next { u with result := t.result }

/-- A latch changes only by reset and by a bus write to its own window; a read changes no state at all, a write to window 5
only the RAM image, a write to windows 4, 6 and 7 nothing, and SAVE and LOAD no latch (10_state.md R35). -/
def Obligations.LatchesChangeOnlyByTheirOwnWrite : Prop :=
  ∀ (i : Instr) (s t : State), exec i s = .next t →
    (t.ramEnabled ≠ s.ramEnabled → ∃ a d, i = .wrRamen a d) ∧
    (t.lowBankBits ≠ s.lowBankBits → ∃ a d, i = .wrBank1 a d) ∧
    (t.secondaryBankBits ≠ s.secondaryBankBits → ∃ a d, i = .wrBank2 a d) ∧
    (t.mode ≠ s.mode → ∃ a d, i = .wrMode a d) ∧
    (∀ a, i = .rdRom0 a ∨ i = .rdRomX a ∨ i = .rdRam a ∨ i = .rdNone a → s.sameBlock t) ∧
    (∀ a d, i = .wrRam a d → s.sameBlock { t with ram := s.ram }) ∧
    (∀ a d, i = .wrNone a d → s.sameBlock t) ∧
    (i = .save ∨ i = .load → s.sameBlock { t with ram := s.ram })

/-- The ROM image is a constant that only RD.ROM0 and RD.ROMX read (10_state.md R26): no operation changes it, and with
any other ROM image every other operation does the same. -/
def Obligations.RomIsConstantAndReadByRomReadsOnly : Prop :=
  ∀ (i : Instr) (s : State),
    (∀ t, exec i s = .next t → t.rom = s.rom) ∧
    ((∀ a, i ≠ .rdRom0 a ∧ i ≠ .rdRomX a) → ∀ rom : RomImage,
      (∀ t, exec i s = .next t → exec i { s with rom := rom } = .next { t with rom := rom }) ∧
      (∀ f, exec i s = .fault f → exec i { s with rom := rom } = .fault f))

/-- The RAM image is changed only by WR.RAM while the RAM is enabled and by a successful LOAD, and its size by nothing
(10_state.md section 3). That a failed LOAD leaves it alone is the spec's decision D12 (log entry 9). -/
def Obligations.RamChangesOnlyByWriteAndLoad : Prop :=
  ∀ (i : Instr) (s t : State), exec i s = .next t →
    t.ramSize = s.ramSize ∧
    (t.ram ≠ s.ram → (s.ramEnabled = true ∧ ∃ a d, i = .wrRam a d) ∨ (i = .load ∧ t.result = .loaded))

/-- While the RAM is disabled the bus can neither learn anything of the RAM image nor change it: with any other image,
size included, every bus operation does the same (20_memory.md section 3). -/
def Obligations.DisabledRamIsIsolated : Prop :=
  ∀ (i : Instr) (s : State) (ram : RamImage), s.ramEnabled = false → i ≠ .save → i ≠ .load →
    ∃ t, exec i s = .next t ∧ t.ram = s.ram ∧ exec i { s with ram := ram } = .next { t with ram := ram }

/-- A bus write to window 0, 1, 2 or 3 writes exactly one latch, the one of its window, with a value computed from the data
byte alone, leaves the other latches and both images as they were and returns nothing; a read of the same addresses is a
ROM read (41_register_state_machine.md R140). -/
def Obligations.ControlWritesWriteOneLatch : Prop :=
  (∀ d : Byte, ∃ (en : Bool) (lo : BitVec 5) (sec : BitVec 2) (m : Mode), ∀ (a : Address) (s : State),
    (a.toNat ≤ 0x1FFF → exec (decodeWrite a d) s = .next { s with ramEnabled := en, result := .unit }) ∧
    (0x2000 ≤ a.toNat ∧ a.toNat ≤ 0x3FFF →
      exec (decodeWrite a d) s = .next { s with lowBankBits := lo, result := .unit }) ∧
    (0x4000 ≤ a.toNat ∧ a.toNat ≤ 0x5FFF →
      exec (decodeWrite a d) s = .next { s with secondaryBankBits := sec, result := .unit }) ∧
    (0x6000 ≤ a.toNat ∧ a.toNat ≤ 0x7FFF →
      exec (decodeWrite a d) s = .next { s with mode := m, result := .unit })) ∧
  (∀ a : Address, a.toNat ≤ 0x7FFF → decodeRead a = .rdRom0 a ∨ decodeRead a = .rdRomX a)

/-- Ignored bits are don't-care (30_encoding.md R86): the address bits and the unused data bits of a control write change
nothing, and no encoding requires a bit to be zero, since every word is an operation. -/
def Obligations.IgnoredBitsChangeNothing : Prop :=
  (∀ (a b : Address) (d e : Byte) (s : State),
    (d.toNat % 16 = e.toNat % 16 → exec (.wrRamen a d) s = exec (.wrRamen b e) s) ∧
    (d.toNat % 32 = e.toNat % 32 → exec (.wrBank1 a d) s = exec (.wrBank1 b e) s) ∧
    (d.toNat % 4 = e.toNat % 4 → exec (.wrBank2 a d) s = exec (.wrBank2 b e) s) ∧
    (d.toNat % 2 = e.toNat % 2 → exec (.wrMode a d) s = exec (.wrMode b e) s)) ∧
  (∀ w : BitVec 26, ∃ i, decodeWord w.toNat = .ok i)

/-- A write done twice in a row leaves the state as the first one left it (20_memory.md section 2). -/
def Obligations.RepeatedWriteIsIdempotent : Prop :=
  ∀ (a : Address) (d : Byte),
    ∀ i ∈ [Instr.wrRamen a d, Instr.wrBank1 a d, Instr.wrBank2 a d, Instr.wrMode a d, Instr.wrNone a d,
      Instr.wrRam a d],
    ∀ s t : State, s.Inv → exec i s = .next t → exec i t = .next t

/-- Control writes to two different windows commute (41_register_state_machine.md section 3): both are performed, and
either order gives the same final state. -/
def Obligations.ControlWritesCommute : Prop :=
  ∀ (a b : Address) (d e : Byte) (s : State), a.toNat < 0x8000 → b.toNat < 0x8000 →
    a.toNat / 0x2000 ≠ b.toNat / 0x2000 →
    ∃ t, core.run 2 { s with stream := [Request.write a.toNat d.toNat, Request.write b.toNat e.toNat] } = .next t ∧
      core.run 2 { s with stream := [Request.write b.toNat e.toNat, Request.write a.toNat d.toNat] } = .next t

/-- After writing mode bit 1, `msb2()` is the current `secondaryBankBits`; after writing mode bit 0 it is 0
(40_address_decoder.md section 1). -/
def Obligations.ModeGatesTheSecondaryBits : Prop :=
  ∀ (a : Address) (d : Byte) (s : State), ∃ t, exec (.wrMode a d) s = .next t ∧
    t.msb2 = if d.toNat % 2 = 1 then s.secondaryBankBits.toNat else 0

/-- A control write is seen by the very next operation, whatever that operation is (20_memory.md section 4): after a write
to window 0, 1, 2 or 3 the next request is performed by the state with the new latch. And what a read just after it
returns, latch by latch and region by region: the low bank and the secondary bank in the switchable region, the secondary
bank and the mode in the low region and in the RAM window, and the enable in the RAM window. Only the RAM window asks for
a RAM, and only while it is enabled. The 0xFF of the disabled RAM is the spec's decision D4 (log entry 16). -/
def Obligations.LatchWriteIsSeenByTheNextOperation : Prop :=
  (∀ (s : State) (c : Address) (d : Byte) (r : Request), c.toNat < 0x8000 →
    core.run 2 { s with stream := [Request.write c.toNat d.toNat, r] } =
      step { s with
        ramEnabled := if c.toNat / 0x2000 = 0 then decide (d.toNat % 16 = 0xA) else s.ramEnabled
        lowBankBits := if c.toNat / 0x2000 = 1 then BitVec.ofNat 5 (max 1 (d.toNat % 32)) else s.lowBankBits
        secondaryBankBits := if c.toNat / 0x2000 = 2 then BitVec.ofNat 2 (d.toNat % 4) else s.secondaryBankBits
        mode := if c.toNat / 0x2000 = 3 then (if d.toNat % 2 = 1 then .mode1 else .mode0) else s.mode
        stream := [r], host := HostSide.initial, result := .unit }) ∧
  (∀ (s : State) (d : Byte) (a : Address),
    let read (c : Nat) (v : Byte) : Prop :=
      ∃ t, core.run 2 { s with stream := [Request.write c d.toNat, Request.read a.toNat] } = .next t ∧
        t.result = .byte v
    let rom (bank : Nat) : Byte := s.romByte ((bank * 0x4000 + a.toNat % 0x4000) &&& (s.romSize - 1))
    let ram (bank : Nat) : Byte := s.ramByte ((bank * 0x2000 + a.toNat % 0x2000) &&& (s.ramSize - 1))
    let newSecondary := if s.mode = .mode1 then d.toNat % 4 else 0
    let newMode := if d.toNat % 2 = 1 then s.secondaryBankBits.toNat else 0
    (a.toNat / 0x4000 = 1 → read 0x2000 (rom (s.secondaryBankBits.toNat * 32 + max 1 (d.toNat % 32)))) ∧
    (a.toNat / 0x4000 = 1 → read 0x4000 (rom (d.toNat % 4 * 32 + s.lowBankBits.toNat))) ∧
    (a.toNat / 0x4000 = 0 → read 0x4000 (rom (newSecondary * 32))) ∧
    (a.toNat / 0x4000 = 0 → read 0x6000 (rom (newMode * 32))) ∧
    (a.toNat / 0x2000 = 5 → d.toNat % 16 ≠ 0xA → read 0x0000 0xFF) ∧
    (a.toNat / 0x2000 = 5 → d.toNat % 16 = 0xA → 1 ≤ s.ramSize → read 0x0000 (s.ramByte (s.ramOffset a))) ∧
    (a.toNat / 0x2000 = 5 → s.ramEnabled = true → 1 ≤ s.ramSize → read 0x4000 (ram newSecondary)) ∧
    (a.toNat / 0x2000 = 5 → s.ramEnabled = true → 1 ≤ s.ramSize → read 0x6000 (ram newMode)))

/-- A control write is seen by a WR.RAM just after it (20_memory.md section 4): the enable decides whether the byte is
stored, the secondary bank and the mode where; every other byte is as before. -/
def Obligations.LatchWriteIsSeenByTheNextRamWrite : Prop :=
  ∀ (s : State) (d e : Byte) (a : Address), s.Inv → a.toNat / 0x2000 = 5 →
    let two (c : Nat) := core.run 2 { s with stream := [Request.write c d.toNat, Request.write a.toNat e.toNat] }
    let stores (c off : Nat) : Prop :=
      ∃ t, two c = .next t ∧ ∀ x, t.ramByte x = if x = off then e else s.ramByte x
    let off (bank : Nat) : Nat := (bank * 0x2000 + a.toNat % 0x2000) &&& (s.ramSize - 1)
    (d.toNat % 16 ≠ 0xA → ∃ t, two 0x0000 = .next t ∧ t.ram = s.ram) ∧
    (d.toNat % 16 = 0xA → 1 ≤ s.ramSize → stores 0x0000 (s.ramOffset a)) ∧
    (s.ramEnabled = true → 1 ≤ s.ramSize →
      stores 0x4000 (off (if s.mode = .mode1 then d.toNat % 4 else 0)) ∧
      stores 0x6000 (off (if d.toNat % 2 = 1 then s.secondaryBankBits.toNat else 0)))

/-! ## Stops -/

/-- No operation is ever refused, and the one fault is `RamAbsent`: raised by RD.RAM and WR.RAM, exactly when the RAM is
enabled and there is none, with the bus address (60_exceptions.md section 1; the fault is the spec's decision D6, log
entry 8). -/
def Obligations.OnlyRamAbsentStops : Prop :=
  ∀ (i : Instr) (s : State),
    (∀ r, exec i s ≠ .refused r) ∧
    (∀ f, exec i s = .fault f ↔ s.ramEnabled = true ∧ s.ramSize = 0 ∧
      ∃ a, f = .ramAbsent a ∧ (i = .rdRam a ∨ ∃ d, i = .wrRam a d))

/-- With a RAM every bus access of 16-bit addresses and 8-bit data has a next state, and so have SAVE and LOAD in every
machine: a step stops only at a breach of the caller's contract, at the end of the stream, or at `RamAbsent`
(41_register_state_machine.md section 3, 60_exceptions.md section 1). -/
def Obligations.EveryAccessCompletes : Prop :=
  ∀ (s : State) (r : Request) (rest : List Request), s.stream = r :: rest →
    (s.HasRam → r.kind ≤ 1 → r.address < 2 ^ 16 → r.data < 2 ^ 8 → ∃ t, step s = .next t) ∧
    (r.kind = 2 ∨ r.kind = 3 → ∃ t, step s = .next t)

/-! ## Reachability, pseudo-operations, ports -/

/-- Each of the 496 legal latch states is reached from any state by four control writes, one to each of the windows 0 to
3, in any order (10_state.md section 7). -/
def Obligations.EveryLatchStateIsReached : Prop :=
  ∀ (s : State) (en : Bool) (m : Mode) (lo : BitVec 5) (sec : BitVec 2), lo ≠ 0 →
    ∃ d0 d1 d2 d3 : Byte, ∀ ops : List Request,
      ops.Perm [Request.write 0x0000 d0.toNat, Request.write 0x2000 d1.toNat, Request.write 0x4000 d2.toNat,
        Request.write 0x6000 d3.toNat] →
      core.run 4 { s with stream := ops } =
        .next { s with
          ramEnabled := en, mode := m, lowBankBits := lo, secondaryBankBits := sec, stream := [],
          host := HostSide.initial, result := .unit }

/-- The effects of the seven pseudo-operations (30_encoding.md section 5, the spec's decision D17, log entry 15). What
`host` and `result` hold afterwards is the model's own. -/
def Obligations.PseudoOperationsHaveTheirEffects : Prop :=
  ∀ (s : State) (p : Pseudo), ∃ t,
    core.run p.expand.length { s with stream := p.expand } = .next t ∧ t.ram = s.ram ∧ t.rom = s.rom ∧
    match p with
    | .ramOn => t.ramEnabled = true ∧ s.sameBlock { t with ramEnabled := s.ramEnabled }
    | .ramOff => t.ramEnabled = false ∧ s.sameBlock { t with ramEnabled := s.ramEnabled }
    | .bank1 n => t.lowBankBits.toNat = max 1 n.toNat ∧ s.sameBlock { t with lowBankBits := s.lowBankBits }
    | .bank2 n => t.secondaryBankBits = n ∧ s.sameBlock { t with secondaryBankBits := s.secondaryBankBits }
    | .mode m => t.mode = m ∧ s.sameBlock { t with mode := s.mode }
    | .romBank n =>
      t.secondaryBankBits.toNat * 32 + t.lowBankBits.toNat =
          (if n.toNat % 32 = 0 then n.toNat + 1 else n.toNat) ∧
        t.ramEnabled = s.ramEnabled ∧ t.mode = s.mode
    | .ramBank n =>
      t.msb2 = (if s.mode = .mode1 then n.toNat else 0) ∧
        s.sameBlock { t with secondaryBankBits := s.secondaryBankBits }

/-- A script line with a specific mnemonic is the operation it names, and it is a line exactly when its address lies in the
window of the mnemonic (30_encoding.md section 5, the spec's decision D17, log entry 15). -/
def Obligations.NamedScriptLinesAreChecked : Prop :=
  ∀ i : Instr, i ≠ .save → i ≠ .load →
    (i.wellFormed = true → ∃ r, (ScriptLine.named i).expand = some [r] ∧ fetch r = .ok i) ∧
    (i.wellFormed = false → (ScriptLine.named i).expand = none)

/-- The output ports agree with the operations (30_encoding.md section 1 and 40_address_decoder.md section 4, the spec's
decisions D1 and D15; 0xFF is its decision D4, log entry 16). A bus read: `rdata` is what it returns, and `responds` is 1
exactly when that is a byte of an image; in windows 0 to 3 the byte is that of the ROM at `rom_off`, in window 5 with an
enabled RAM that of the RAM at `ram_off`. A bus write: a byte is stored exactly when `ram_we` is 1 and there is a RAM, at
`ram_off`, with the value `ram_wdata`. `ram_sel` is 1 exactly in window 5 with `ramEnabled`. The offset ports fit their 21
and 15 bits. The model's own (log entry 14): that an offset port is `none` outside its windows, that `rdata` is `none` in a
read that faults and in an enabled write of window 5, and that outside a read `responds` is 0 and `rdata` 0xFF while
nothing is selected. -/
def Obligations.PortsAgreeWithTheOperations : Prop :=
  (∀ (a : Address) (s : State),
    let i := decodeRead a
    let p := ports i s
    (∀ t, exec i s = .next t → ∃ v, t.result = .byte v ∧ p.rdata = some v) ∧
    (∀ f, exec i s = .fault f → p.rdata = none) ∧
    (p.responds = true ↔ a.toNat < 0x8000 ∨ (a.toNat / 0x2000 = 5 ∧ s.ramEnabled = true ∧ 1 ≤ s.ramSize)) ∧
    (∀ t, exec i s = .next t → p.responds = false → p.rdata = some 0xFF) ∧
    (a.toNat < 0x8000 → ∃ o, p.romOff = some o ∧ o < s.romSize ∧
      exec i s = .next { s with result := .byte (s.romByte o) }) ∧
    (0x8000 ≤ a.toNat → p.romOff = none) ∧
    (a.toNat / 0x2000 = 5 → 1 ≤ s.ramSize → ∃ o, p.ramOff = some o ∧ o < s.ramSize ∧
      (s.ramEnabled = true → exec i s = .next { s with result := .byte (s.ramByte o) })) ∧
    (a.toNat / 0x2000 ≠ 5 ∨ s.ramSize = 0 → p.ramOff = none) ∧
    (p.ramSel = true ↔ a.toNat / 0x2000 = 5 ∧ s.ramEnabled = true) ∧ p.ramWe = false) ∧
  (∀ (a : Address) (d : Byte) (s : State),
    let i := decodeWrite a d
    let p := ports i s
    (p.ramSel = true ↔ a.toNat / 0x2000 = 5 ∧ s.ramEnabled = true) ∧ p.ramWe = p.ramSel ∧ p.ramWdata = some d ∧
    (a.toNat / 0x2000 = 5 → p.ramOff = (ports (decodeRead a) s).ramOff) ∧ (a.toNat / 0x2000 ≠ 5 → p.ramOff = none) ∧
    p.romOff = none ∧ p.responds = false ∧ p.rdata = (if p.ramSel then none else some 0xFF)) ∧
  (∀ s : State, ∀ i ∈ [Instr.save, Instr.load],
    let p := ports i s
    p.ramSel = false ∧ p.ramWe = false ∧ p.romOff = none ∧ p.ramOff = none ∧ p.responds = false ∧
      p.rdata = some 0xFF) ∧
  (∀ (i : Instr) (s : State),
    (∀ o, (ports i s).romOff = some o → o < 2 ^ 21) ∧ (∀ o, (ports i s).ramOff = some o → o < 2 ^ 15)) ∧
  (∀ (i : Instr) (s t : State), i ≠ .load → exec i s = .next t →
    ((ports i s).ramWe = false → t.ram = s.ram) ∧
    ((ports i s).ramWe = true → ∃ o d, (ports i s).ramOff = some o ∧ (ports i s).ramWdata = some d ∧
      (ports i s).ramSel = true ∧ t.ram.cells = s.ram.cells.write o d ∧ t.ramSize = s.ramSize))
end

