-- ==== Sys2Proof/Laws/Decode.lean ====
section
/-! SUPPORT. The fields of a word as arithmetic, and the windows as address ranges. -/

namespace Sys2Proof

/-- The window of an address is its number of 8 KiB steps (40_address_decoder.md R110). -/
theorem window_toNat (a : Address) : (window a).toNat = a.toNat / 0x2000 := by
  have h := a.isLt
  simp only [window, BitVec.extractLsb'_toNat, Nat.shiftRight_eq_div_pow]
  omega

theorem window_eq_iff (a : Address) (w : BitVec 3) : window a = w ↔ a.toNat / 0x2000 = w.toNat := by
  rw [← BitVec.toNat_inj, window_toNat]

/-- `(kind << 24) | (addr << 8) | data` as a sum (30_encoding.md R82). -/
theorem packWord_toNat (k : BitVec 2) (a : Address) (d : Byte) :
    (packWord k a d).toNat = k.toNat * 2 ^ 24 + a.toNat * 2 ^ 8 + d.toNat := by
  have ha := a.isLt
  have hd := d.isLt
  rw [packWord, BitVec.toNat_append, BitVec.toNat_append, ← Nat.shiftLeft_add_eq_or_of_lt hd,
    ← Nat.shiftLeft_add_eq_or_of_lt ha]
  simp only [Nat.shiftLeft_eq]
  omega

theorem wordKind_packWord (k : BitVec 2) (a : Address) (d : Byte) : wordKind (packWord k a d).toNat = k.toNat := by
  have ha := a.isLt
  have hd := d.isLt
  rw [packWord_toNat, wordKind]
  omega

theorem wordAddress_packWord (k : BitVec 2) (a : Address) (d : Byte) :
    wordAddress (packWord k a d).toNat = a.toNat := by
  have ha := a.isLt
  have hd := d.isLt
  rw [packWord_toNat, wordAddress]
  omega

theorem wordData_packWord (k : BitVec 2) (a : Address) (d : Byte) : wordData (packWord k a d).toNat = d.toNat := by
  have hd := d.isLt
  rw [packWord_toNat, wordData]
  omega

/-- A read word decodes to the read of its address. -/
theorem decodeWord_read (a : Address) (d : Byte) : decodeWord (packWord 0 a d).toNat = .ok (decodeRead a) := by
  simp only [decodeWord, wordKind_packWord, wordAddress_packWord, decodeFields, BitVec.ofNat_eq_ofNat,
    BitVec.toNat_ofNat, Nat.zero_mod, a.isLt, if_true, BitVec.ofNat_toNat, BitVec.setWidth_eq]

/-- A write word decodes to the write of its address and data. -/
theorem decodeWord_write (a : Address) (d : Byte) : decodeWord (packWord 1 a d).toNat = .ok (decodeWrite a d) := by
  have h1 : (1 : BitVec 2).toNat = 1 := rfl
  simp only [decodeWord, wordKind_packWord, wordAddress_packWord, wordData_packWord, decodeFields, h1, a.isLt, d.isLt,
    and_self, if_true, BitVec.ofNat_toNat, BitVec.setWidth_eq]

end Sys2Proof
end

