-- ==== Sys2Proof/Laws/Flags.lean ====
section
/-! SUPPORT. The stored value of each control write as arithmetic on the data byte (10_state.md R33). -/

namespace Sys2Proof.Machine

theorem enableOf_eq (d : Byte) : enableOf d = decide (d.toNat % 16 = 10) := by
  have h : (d.extractLsb' 0 4).toNat = d.toNat % 16 := by simp
  unfold enableOf
  exact decide_eq_decide.mpr (by rw [← BitVec.toNat_inj, h]; rfl)

theorem lowBankOf_toNat (d : Byte) : (lowBankOf d).toNat = max 1 (d.toNat % 32) := by
  have h : (d.extractLsb' 0 5).toNat = d.toNat % 32 := by simp
  have hz : d.extractLsb' 0 5 = 0 ↔ d.toNat % 32 = 0 := by rw [← BitVec.toNat_inj, h]; rfl
  unfold lowBankOf
  split
  · rename_i h0
    rw [hz.mp h0]
    rfl
  · rename_i h0
    rw [h]
    have : ¬d.toNat % 32 = 0 := fun e => h0 (hz.mpr e)
    omega

/-- The clamp: the low bank latch is never given 0 (10_state.md R29). -/
theorem lowBankOf_ne_zero (d : Byte) : lowBankOf d ≠ 0 := by
  unfold lowBankOf
  split
  · decide
  · assumption

theorem secondaryBankOf_toNat (d : Byte) : (secondaryBankOf d).toNat = d.toNat % 4 := by
  simp [secondaryBankOf]

theorem modeOf_eq (d : Byte) : modeOf d = if d.toNat % 2 = 1 then .mode1 else .mode0 := by
  have h : (d.extractLsb' 0 1).toNat = d.toNat % 2 := by simp
  simp only [modeOf, ← BitVec.toNat_inj, h]
  rfl

end Sys2Proof.Machine
end

