-- ==== Sys2Proof/Laws/Operands.lean ====
section
/-! SUPPORT. The offset formulas as arithmetic (40_address_decoder.md R112, R113): the fields abut and do not overlap, so
the `|` between them is a sum (00_scope.md R14). -/

namespace Sys2Proof.Machine

@[simp] theorem State.msb2_mode0 {s : State} (h : s.mode = .mode0) : s.msb2 = 0 := by
  simp [State.msb2, h]

@[simp] theorem State.msb2_mode1 {s : State} (h : s.mode = .mode1) : s.msb2 = s.secondaryBankBits.toNat := by
  simp [State.msb2, h]

/-- "a value 0 to 3" (40_address_decoder.md R111). -/
theorem State.msb2_lt (s : State) : s.msb2 < 4 := by
  have h := s.secondaryBankBits.isLt
  unfold State.msb2
  split <;> omega

theorem State.romMask_eq (s : State) : s.romMask = s.rom.last := rfl

/-- The low 14 bits of an address. -/
theorem and_romOffsetMask (x : Nat) : x &&& romOffsetMask = x % 0x4000 :=
  Nat.and_two_pow_sub_one_eq_mod x 14

/-- The low 13 bits of an address. -/
theorem and_ramOffsetMask (x : Nat) : x &&& ramOffsetMask = x % 0x2000 :=
  Nat.and_two_pow_sub_one_eq_mod x 13

/-- "it equals `hi * 0x80000 + lo * 0x4000 + address[13:0]`" before the mask (40_address_decoder.md R112). -/
theorem State.romOffset_eq (s : State) (hi : Nat) {lo : Nat} (hlo : lo < 32) (a : Address) :
    s.romOffset hi lo a = (hi * 0x80000 + lo * 0x4000 + a.toNat % 0x4000) &&& s.romMask := by
  have h1 : lo * 2 ^ 14 < 2 ^ 19 := by omega
  have h2 : a.toNat % 0x4000 < 2 ^ 14 := by omega
  rw [State.romOffset, and_romOffsetMask, secRomShift, lowBankShift, Nat.shiftLeft_eq lo,
    ← Nat.shiftLeft_add_eq_or_of_lt h1, Nat.shiftLeft_eq hi,
    show hi * 2 ^ 19 + lo * 2 ^ 14 = (hi * 32 + lo) <<< 14 by rw [Nat.shiftLeft_eq]; omega,
    ← Nat.shiftLeft_add_eq_or_of_lt h2, Nat.shiftLeft_eq,
    show (hi * 32 + lo) * 2 ^ 14 = hi * 0x80000 + lo * 0x4000 by omega]

/-- "it equals `msb2(L) * 0x2000 + address[12:0]`" before the mask (40_address_decoder.md R113). -/
theorem State.ramOffset_eq (s : State) (a : Address) :
    s.ramOffset a = (s.msb2 * 0x2000 + a.toNat % 0x2000) &&& s.ramMask := by
  have h2 : a.toNat % 0x2000 < 2 ^ 13 := by omega
  rw [State.ramOffset, and_ramOffsetMask, secRamShift, ← Nat.shiftLeft_add_eq_or_of_lt h2, Nat.shiftLeft_eq]

end Sys2Proof.Machine
end

