-- ==== Sys2Proof/Laws/Memory.lean ====
section
/-! SUPPORT. What the operations on an image do: a read after a write, the canonical form kept, and that equal contents
are equal data. -/

namespace Sys2Proof.Machine

@[simp] theorem Memory.read_nil (off : Nat) : Memory.read [] off = Memory.unlisted := rfl

theorem Memory.read_cell (a : Nat) (b : Byte) (m : Memory) (off : Nat) :
    Memory.read ((a, b) :: m) off = if a = off then b else Memory.read m off := rfl

/-- Cells above `off` say nothing about it. -/
theorem Memory.read_below {size lo : Nat} {m : Memory} (h : Memory.wfFrom size lo m = true) {off : Nat} (hlt : off < lo) :
    Memory.read m off = Memory.unlisted := by
  induction m generalizing lo with
  | nil => rfl
  | cons c m ih =>
    obtain ⟨a, b⟩ := c
    simp only [Memory.wfFrom, Bool.and_eq_true, decide_eq_true_eq] at h
    rw [Memory.read_cell, if_neg (by omega)]
    exact ih h.2 (by omega)

/-- The bound a canonical form starts from may be lowered. -/
theorem Memory.wfFrom_lower {size lo lo' : Nat} {m : Memory} (h : Memory.wfFrom size lo m = true) (hle : lo' ≤ lo) :
    Memory.wfFrom size lo' m = true := by
  cases m with
  | nil => rfl
  | cons c m =>
    obtain ⟨a, b⟩ := c
    simp only [Memory.wfFrom, Bool.and_eq_true, decide_eq_true_eq] at h ⊢
    exact ⟨⟨⟨by omega, h.1.1.2⟩, h.1.2⟩, h.2⟩

/-- A cell put before cells above it: what is read. -/
theorem Memory.read_cons {size off : Nat} {m : Memory} (h : Memory.wfFrom size (off + 1) m = true) (v : Byte) (x : Nat) :
    Memory.read (Memory.cons off v m) x = if x = off then v else Memory.read m x := by
  unfold Memory.cons
  split
  · split
    · subst_vars
      exact Memory.read_below h (by omega)
    · rfl
  · rw [Memory.read_cell]
    simp only [eq_comm]

/-- A cell put before cells above it: the canonical form. -/
theorem Memory.wfFrom_cons {size lo off : Nat} {m : Memory} (h : Memory.wfFrom size (off + 1) m = true)
    (hlo : lo ≤ off) (hoff : off < size) (v : Byte) : Memory.wfFrom size lo (Memory.cons off v m) = true := by
  unfold Memory.cons
  split
  · exact Memory.wfFrom_lower h (by omega)
  · rename_i hv
    simp only [Memory.wfFrom, Bool.and_eq_true, decide_eq_true_eq, bne_iff_ne]
    exact ⟨⟨⟨hlo, hoff⟩, hv⟩, h⟩

/-- A write: the byte written is read, every other byte is as before. -/
theorem Memory.read_write_from {size lo : Nat} {m : Memory} (h : Memory.wfFrom size lo m = true) (off : Nat) (v : Byte)
    (x : Nat) : Memory.read (Memory.write m off v) x = if x = off then v else Memory.read m x := by
  induction m generalizing lo with
  | nil => exact Memory.read_cons (size := 0) rfl v x
  | cons c m ih =>
    obtain ⟨a, b⟩ := c
    have h' := h
    simp only [Memory.wfFrom, Bool.and_eq_true, decide_eq_true_eq] at h
    obtain ⟨⟨⟨hlo, ha⟩, hb⟩, hm⟩ := h
    unfold Memory.write
    split
    · rename_i hlt
      refine Memory.read_cons (size := size) ?_ v x
      simp only [Memory.wfFrom, Bool.and_eq_true, decide_eq_true_eq]
      exact ⟨⟨⟨by omega, ha⟩, hb⟩, hm⟩
    · split
      · rename_i heq
        subst heq
        rw [Memory.read_cons hm, Memory.read_cell]
        split
        · rfl
        · rw [if_neg (by omega)]
      · rw [Memory.read_cell, Memory.read_cell, ih hm]
        split
        · rw [if_neg (by omega)]
        · rfl

/-- A write keeps the canonical form. -/
theorem Memory.wfFrom_write {size lo : Nat} {m : Memory} (h : Memory.wfFrom size lo m = true) {off : Nat}
    (hlo : lo ≤ off) (hoff : off < size) (v : Byte) : Memory.wfFrom size lo (Memory.write m off v) = true := by
  induction m generalizing lo with
  | nil => exact Memory.wfFrom_cons rfl hlo hoff v
  | cons c m ih =>
    obtain ⟨a, b⟩ := c
    simp only [Memory.wfFrom, Bool.and_eq_true, decide_eq_true_eq] at h
    obtain ⟨⟨⟨hla, ha⟩, hb⟩, hm⟩ := h
    unfold Memory.write
    split
    · refine Memory.wfFrom_cons ?_ hlo hoff v
      simp only [Memory.wfFrom, Bool.and_eq_true, decide_eq_true_eq]
      exact ⟨⟨⟨by omega, ha⟩, hb⟩, hm⟩
    · split
      · rename_i heq
        subst heq
        exact Memory.wfFrom_cons hm hlo hoff v
      · simp only [Memory.wfFrom, Bool.and_eq_true, decide_eq_true_eq]
        exact ⟨⟨⟨hla, ha⟩, hb⟩, ih hm (by omega)⟩

theorem Memory.read_write {size : Nat} {m : Memory} (h : m.wf size = true) (off : Nat) (v : Byte) (x : Nat) :
    (m.write off v).read x = if x = off then v else m.read x :=
  Memory.read_write_from h off v x

theorem Memory.wf_write {size : Nat} {m : Memory} (h : m.wf size = true) {off : Nat} (hoff : off < size) (v : Byte) :
    (m.write off v).wf size = true :=
  Memory.wfFrom_write h (by omega) hoff v

/-- The image of a byte sequence is canonical. -/
theorem Memory.wfFrom_ofBytesFrom (bs : List Byte) (off : Nat) :
    Memory.wfFrom (off + bs.length) off (Memory.ofBytesFrom off bs) = true := by
  induction bs generalizing off with
  | nil => rfl
  | cons b bs ih =>
    have h := ih (off + 1)
    rw [show off + 1 + bs.length = off + (b :: bs).length by simp only [List.length_cons]; omega] at h
    exact Memory.wfFrom_cons h (by omega) (by simp only [List.length_cons]; omega) b

theorem Memory.wf_ofBytes (bs : List Byte) : (Memory.ofBytes bs).wf bs.length = true := by
  have h := Memory.wfFrom_ofBytesFrom bs 0
  rwa [Nat.zero_add] at h

/-- The image of a byte sequence holds byte `i` at offset `i`. -/
theorem Memory.read_ofBytesFrom (bs : List Byte) (off x : Nat) (hx : off ≤ x) :
    Memory.read (Memory.ofBytesFrom off bs) x = bs.getD (x - off) Memory.unlisted := by
  induction bs generalizing off with
  | nil => rfl
  | cons b bs ih =>
    have hw := Memory.wfFrom_ofBytesFrom bs (off + 1)
    rw [Memory.ofBytesFrom, Memory.read_cons hw]
    split
    · subst_vars
      simp only [Nat.sub_self, List.getD_cons_zero]
    · rw [ih (off + 1) (by omega), show x - off = (x - (off + 1)) + 1 by omega, List.getD_cons_succ]

theorem Memory.read_ofBytes (bs : List Byte) (x : Nat) :
    (Memory.ofBytes bs).read x = bs.getD x Memory.unlisted :=
  Memory.read_ofBytesFrom bs 0 x (by omega)

/-- Two canonical images that read the same are the same data. -/
theorem Memory.wfFrom_ext {size lo : Nat} {m m' : Memory} (h : Memory.wfFrom size lo m = true)
    (h' : Memory.wfFrom size lo m' = true) (hr : ∀ x, Memory.read m x = Memory.read m' x) : m = m' := by
  induction m generalizing lo m' with
  | nil =>
    cases m' with
    | nil => rfl
    | cons c m' =>
      obtain ⟨a, b⟩ := c
      simp only [Memory.wfFrom, Bool.and_eq_true, decide_eq_true_eq, bne_iff_ne] at h'
      have := hr a
      rw [Memory.read_cell, if_pos rfl] at this
      exact absurd this.symm h'.1.2
  | cons c m ih =>
    obtain ⟨a, b⟩ := c
    simp only [Memory.wfFrom, Bool.and_eq_true, decide_eq_true_eq, bne_iff_ne] at h
    cases m' with
    | nil =>
      have := hr a
      rw [Memory.read_cell, if_pos rfl] at this
      exact absurd this h.1.2
    | cons c' m' =>
      obtain ⟨a', b'⟩ := c'
      simp only [Memory.wfFrom, Bool.and_eq_true, decide_eq_true_eq, bne_iff_ne] at h'
      have ha := hr a
      have ha' := hr a'
      rw [Memory.read_cell, if_pos rfl, Memory.read_cell] at ha
      rw [Memory.read_cell, Memory.read_cell, if_pos rfl] at ha'
      have haa : a = a' := by
        by_contra hne
        rw [if_neg (fun e => hne e.symm)] at ha
        rw [if_neg hne] at ha'
        rcases Nat.lt_or_gt_of_ne hne with hlt | hgt
        · rw [Memory.read_below h'.2 (by omega)] at ha
          exact h.1.2 ha
        · rw [Memory.read_below h.2 (by omega)] at ha'
          exact h'.1.2 ha'.symm
      subst haa
      rw [if_pos rfl] at ha
      subst ha
      congr 1
      refine ih h.2 h'.2 (fun x => ?_)
      have hx := hr x
      rw [Memory.read_cell, Memory.read_cell] at hx
      split at hx
      · rename_i hax
        subst hax
        rw [Memory.read_below h.2 (by omega), Memory.read_below h'.2 (by omega)]
      · exact hx

theorem Memory.wf_ext {size : Nat} {m m' : Memory} (h : m.wf size = true) (h' : m'.wf size = true)
    (hr : ∀ x, m.read x = m'.read x) : m = m' :=
  Memory.wfFrom_ext h h' hr

/-- Nothing is listed at or above the size. -/
theorem Memory.read_above {size lo : Nat} {m : Memory} (h : Memory.wfFrom size lo m = true) {off : Nat}
    (hge : size ≤ off) : Memory.read m off = Memory.unlisted := by
  induction m generalizing lo with
  | nil => rfl
  | cons c m ih =>
    obtain ⟨a, b⟩ := c
    simp only [Memory.wfFrom, Bool.and_eq_true, decide_eq_true_eq] at h
    rw [Memory.read_cell, if_neg (by omega)]
    exact ih h.2

@[simp] theorem Memory.length_toBytes (size : Nat) (m : Memory) : (m.toBytes size).length = size := by
  simp [Memory.toBytes]

theorem Memory.getD_toBytes (size : Nat) (m : Memory) {x : Nat} (hx : x < size) :
    (m.toBytes size).getD x Memory.unlisted = m.read x := by
  simp [Memory.toBytes, List.getD_eq_getElem?_getD, hx]

/-- Writing out a canonical image and reading it back gives the same data (42_persistence.md R165). -/
theorem Memory.ofBytes_toBytes {size : Nat} {m : Memory} (h : m.wf size = true) :
    Memory.ofBytes (m.toBytes size) = m := by
  have hw := Memory.wf_ofBytes (m.toBytes size)
  rw [Memory.length_toBytes] at hw
  refine Memory.wf_ext hw h (fun x => ?_)
  rw [Memory.read_ofBytes]
  by_cases hx : x < size
  · exact Memory.getD_toBytes size m hx
  · rw [Memory.read_above h (by omega), List.getD_eq_getElem?_getD, List.getElem?_eq_none (by simp; omega)]
    rfl

end Sys2Proof.Machine
end

