-- ==== Sys2Proof/Laws/State.lean ====
section
/-! SUPPORT. What each update of the state does to each field: one lemma per field and update, so that no later proof
unfolds a record update. -/

namespace Sys2Proof.Machine

variable (s : State) (r : Result) (v : Byte) (off : Nat) (bs : List Byte) (q : Request) (rest : List Request)

/-! `State.returning` -/

@[simp] theorem State.returning_ramEnabled : (s.returning r).ramEnabled = s.ramEnabled := rfl
@[simp] theorem State.returning_mode : (s.returning r).mode = s.mode := rfl
@[simp] theorem State.returning_lowBankBits : (s.returning r).lowBankBits = s.lowBankBits := rfl
@[simp] theorem State.returning_secondaryBankBits : (s.returning r).secondaryBankBits = s.secondaryBankBits := rfl
@[simp] theorem State.returning_ram : (s.returning r).ram = s.ram := rfl
@[simp] theorem State.returning_rom : (s.returning r).rom = s.rom := rfl
@[simp] theorem State.returning_stream : (s.returning r).stream = s.stream := rfl
@[simp] theorem State.returning_host : (s.returning r).host = s.host := rfl
@[simp] theorem State.returning_result : (s.returning r).result = r := rfl

theorem State.returnByte_eq : s.returnByte v = s.returning (.byte v) := rfl

/-! `State.setRamByte` -/

@[simp] theorem State.setRamByte_ramEnabled : (s.setRamByte off v).ramEnabled = s.ramEnabled := rfl
@[simp] theorem State.setRamByte_mode : (s.setRamByte off v).mode = s.mode := rfl
@[simp] theorem State.setRamByte_lowBankBits : (s.setRamByte off v).lowBankBits = s.lowBankBits := rfl
@[simp] theorem State.setRamByte_secondaryBankBits :
    (s.setRamByte off v).secondaryBankBits = s.secondaryBankBits := rfl
@[simp] theorem State.setRamByte_ram_size : (s.setRamByte off v).ram.size = s.ram.size := rfl
@[simp] theorem State.setRamByte_ram_cells : (s.setRamByte off v).ram.cells = s.ram.cells.write off v := rfl
@[simp] theorem State.setRamByte_rom : (s.setRamByte off v).rom = s.rom := rfl
@[simp] theorem State.setRamByte_stream : (s.setRamByte off v).stream = s.stream := rfl
@[simp] theorem State.setRamByte_host : (s.setRamByte off v).host = s.host := rfl
@[simp] theorem State.setRamByte_result : (s.setRamByte off v).result = s.result := rfl

/-! `State.setRamBytes` -/

@[simp] theorem State.setRamBytes_ramEnabled : (s.setRamBytes bs).ramEnabled = s.ramEnabled := rfl
@[simp] theorem State.setRamBytes_mode : (s.setRamBytes bs).mode = s.mode := rfl
@[simp] theorem State.setRamBytes_lowBankBits : (s.setRamBytes bs).lowBankBits = s.lowBankBits := rfl
@[simp] theorem State.setRamBytes_secondaryBankBits :
    (s.setRamBytes bs).secondaryBankBits = s.secondaryBankBits := rfl
@[simp] theorem State.setRamBytes_ram_size : (s.setRamBytes bs).ram.size = s.ram.size := rfl
@[simp] theorem State.setRamBytes_ram_cells : (s.setRamBytes bs).ram.cells = Memory.ofBytes bs := rfl
@[simp] theorem State.setRamBytes_rom : (s.setRamBytes bs).rom = s.rom := rfl
@[simp] theorem State.setRamBytes_stream : (s.setRamBytes bs).stream = s.stream := rfl
@[simp] theorem State.setRamBytes_host : (s.setRamBytes bs).host = s.host := rfl
@[simp] theorem State.setRamBytes_result : (s.setRamBytes bs).result = s.result := rfl

/-! `State.take` -/

@[simp] theorem State.take_ramEnabled : (s.take q rest).ramEnabled = s.ramEnabled := rfl
@[simp] theorem State.take_mode : (s.take q rest).mode = s.mode := rfl
@[simp] theorem State.take_lowBankBits : (s.take q rest).lowBankBits = s.lowBankBits := rfl
@[simp] theorem State.take_secondaryBankBits : (s.take q rest).secondaryBankBits = s.secondaryBankBits := rfl
@[simp] theorem State.take_ram : (s.take q rest).ram = s.ram := rfl
@[simp] theorem State.take_rom : (s.take q rest).rom = s.rom := rfl
@[simp] theorem State.take_stream : (s.take q rest).stream = rest := rfl
@[simp] theorem State.take_host : (s.take q rest).host = q.host := rfl
@[simp] theorem State.take_result : (s.take q rest).result = s.result := rfl

/-! Reading the images -/

/-- A read of the RAM image after one byte was written. -/
theorem State.ramByte_setRamByte (h : s.ram.cells.wf s.ramSize = true) (x : Nat) :
    (s.setRamByte off v).ramByte x = if x = off then v else s.ramByte x :=
  Memory.read_write h off v x

/-- A read of the RAM image after all of it was overwritten. -/
theorem State.ramByte_setRamBytes (x : Nat) : (s.setRamBytes bs).ramByte x = bs.getD x Memory.unlisted :=
  Memory.read_ofBytes bs x

@[simp] theorem State.romByte_returning (x : Nat) : (s.returning r).romByte x = s.romByte x := rfl
@[simp] theorem State.ramByte_returning (x : Nat) : (s.returning r).ramByte x = s.ramByte x := rfl
@[simp] theorem State.romByte_setRamByte (x : Nat) : (s.setRamByte off v).romByte x = s.romByte x := rfl

end Sys2Proof.Machine
end

