-- ==== Sys2Proof/Laws/Step.lean ====
section
/-! SUPPORT. Everything each shared operation and a step can do, said once. -/

namespace Sys2Proof.Machine

/-- An access behind the RAM gate, when the RAM is disabled. -/
theorem State.ramAccess_disabled {s : State} (a : Address) (d : State) (f : Nat → State) (h : s.ramEnabled = false) :
    s.ramAccess a d f = .next d := by
  simp [State.ramAccess, h]

/-- An access behind the RAM gate, when it is open. -/
theorem State.ramAccess_enabled {s : State} (a : Address) (d : State) (f : Nat → State) (h : s.ramEnabled = true)
    (hs : 1 ≤ s.ramSize) : s.ramAccess a d f = .next (f (s.ramOffset a)) := by
  have : s.ramSize ≠ 0 := by omega
  simp [State.ramAccess, h, this]

/-- An access behind an open RAM gate with no RAM. -/
theorem State.ramAccess_absent {s : State} (a : Address) (d : State) (f : Nat → State) (h : s.ramEnabled = true)
    (hs : s.ramSize = 0) : s.ramAccess a d f = .fault (.ramAbsent a) := by
  simp [State.ramAccess, h, hs, raise]

/-- If an access behind the RAM gate answers a state, it is the disabled one or the accessed one. -/
theorem State.ramAccess_next {s t : State} {a : Address} {d : State} {f : Nat → State}
    (h : s.ramAccess a d f = .next t) :
    (s.ramEnabled = false ∧ t = d) ∨ (s.ramEnabled = true ∧ 1 ≤ s.ramSize ∧ t = f (s.ramOffset a)) := by
  unfold State.ramAccess raise at h
  split at h
  · rename_i he
    split at h
    · cases h
    · cases h
      exact .inr ⟨he, by omega, rfl⟩
  · rename_i he
    cases h
    exact .inl ⟨by simpa using he, rfl⟩

/-- If an access behind the RAM gate stops, it is because there is no RAM. -/
theorem State.ramAccess_fault {s : State} {a : Address} {d : State} {f : Nat → State} {e : Fault}
    (h : s.ramAccess a d f = .fault e) : s.ramEnabled = true ∧ s.ramSize = 0 ∧ e = .ramAbsent a := by
  unfold State.ramAccess raise at h
  split at h
  · rename_i he
    split at h
    · rename_i hs
      cases h
      exact ⟨he, hs, rfl⟩
    · cases h
  · cases h

/-- An access behind the RAM gate is never refused. -/
theorem State.ramAccess_refused {s : State} {a : Address} {d : State} {f : Nat → State} {e : Refusal} :
    s.ramAccess a d f ≠ .refused e := by
  unfold State.ramAccess raise
  split
  · split <;> nofun
  · nofun

/-- A bus read of a 16-bit address is fetched as the read its window selects. -/
theorem fetch_read (a : Address) : fetch (Request.read a.toNat) = .ok (decodeRead a) := by
  simp [fetch, Request.read, decodeFields, a.isLt]

/-- A bus write of a 16-bit address and a byte is fetched as the write its window selects. -/
theorem fetch_write (a : Address) (d : Byte) : fetch (Request.write a.toNat d.toNat) = .ok (decodeWrite a d) := by
  simp [fetch, Request.write, decodeFields, a.isLt, d.isLt]

/-- A step that answers a state performed the operation at the head of the stream. -/
theorem step_next {s t : State} (h : step s = .next t) :
    ∃ r rest i, s.stream = r :: rest ∧ fetch r = .ok i ∧ exec i (s.take r rest) = .next t := by
  unfold step at h
  split at h
  · cases h
  · rename_i r rest hs
    split at h
    · cases h
    · rename_i i hf
      exact ⟨r, rest, i, hs, hf, h⟩

/-- What `LOAD` does with its source. -/
theorem loadFrom_cases (s : State) (src : Source) :
    (∃ bs, src = .bytes bs ∧ bs.length = s.ramSize ∧ loadFrom s src = (s.setRamBytes bs).returning .loaded) ∨
      loadFrom s src = s.returning .ioError := by
  cases src with
  | unavailable => exact .inr rfl
  | bytes bs =>
    by_cases h : bs.length = s.ramSize
    · exact .inl ⟨bs, rfl, h, by simp [loadFrom, h]⟩
    · exact .inr (by simp [loadFrom, h])

end Sys2Proof.Machine
end

