-- ==== Sys2Proof/Laws/Exec.lean ====
section
/-! SUPPORT. Each operation as its shared operation, so that a proof about an operation starts by one rewrite, and the
bank bits as one formula. -/

namespace Sys2Proof.Machine

variable (a : Address) (d : Byte) (s : State)

theorem exec_rdRom0 : exec (.rdRom0 a) s = .next (s.returning (.byte (s.romByte (s.lowRegionOffset a)))) := rfl

theorem exec_rdRomX : exec (.rdRomX a) s = .next (s.returning (.byte (s.romByte (s.switchableRegionOffset a)))) := rfl

theorem exec_rdNone : exec (.rdNone a) s = .next (s.returning (.byte openBus)) := rfl

theorem exec_rdRam : exec (.rdRam a) s =
    s.ramAccess a (s.returning (.byte openBus)) (fun off => s.returning (.byte (s.ramByte off))) := rfl

theorem exec_wrRam : exec (.wrRam a d) s =
    s.ramAccess a (s.returning .unit) (fun off => (s.setRamByte off d).returning .unit) := rfl

theorem exec_wrRamen : exec (.wrRamen a d) s = .next ({ s with ramEnabled := enableOf d }.returning .unit) := rfl

theorem exec_wrBank1 : exec (.wrBank1 a d) s = .next ({ s with lowBankBits := lowBankOf d }.returning .unit) := rfl

theorem exec_wrBank2 :
    exec (.wrBank2 a d) s = .next ({ s with secondaryBankBits := secondaryBankOf d }.returning .unit) := rfl

theorem exec_wrMode : exec (.wrMode a d) s = .next ({ s with mode := modeOf d }.returning .unit) := rfl

theorem exec_wrNone : exec (.wrNone a d) s = .next (s.returning .unit) := rfl

theorem exec_save : exec .save s = .next (s.returning (saveResult s)) := rfl

theorem exec_load : exec .load s = .next (loadFrom s s.host.source) := rfl

/-! What `RD.RAM` and `WR.RAM` can do -/

theorem exec_rdRam_disabled {s : State} (h : s.ramEnabled = false) :
    exec (.rdRam a) s = .next (s.returning (.byte openBus)) :=
  (exec_rdRam a s).trans (State.ramAccess_disabled a _ _ h)

theorem exec_rdRam_enabled {s : State} (h : s.ramEnabled = true) (hs : 1 ≤ s.ramSize) :
    exec (.rdRam a) s = .next (s.returning (.byte (s.ramByte (s.ramOffset a)))) :=
  (exec_rdRam a s).trans (State.ramAccess_enabled a _ _ h hs)

theorem exec_rdRam_absent {s : State} (h : s.ramEnabled = true) (hs : s.ramSize = 0) :
    exec (.rdRam a) s = .fault (.ramAbsent a) :=
  (exec_rdRam a s).trans (State.ramAccess_absent a _ _ h hs)

theorem exec_rdRam_next {a : Address} {s t : State} (h : exec (.rdRam a) s = .next t) :
    (s.ramEnabled = false ∧ t = s.returning (.byte openBus)) ∨
      (s.ramEnabled = true ∧ 1 ≤ s.ramSize ∧ t = s.returning (.byte (s.ramByte (s.ramOffset a)))) :=
  State.ramAccess_next ((exec_rdRam a s).symm.trans h)

theorem exec_rdRam_fault {a : Address} {s : State} {e : Fault} (h : exec (.rdRam a) s = .fault e) :
    s.ramEnabled = true ∧ s.ramSize = 0 ∧ e = .ramAbsent a :=
  State.ramAccess_fault ((exec_rdRam a s).symm.trans h)

theorem exec_wrRam_disabled {s : State} (h : s.ramEnabled = false) :
    exec (.wrRam a d) s = .next (s.returning .unit) :=
  (exec_wrRam a d s).trans (State.ramAccess_disabled a _ _ h)

theorem exec_wrRam_enabled {s : State} (h : s.ramEnabled = true) (hs : 1 ≤ s.ramSize) :
    exec (.wrRam a d) s = .next ((s.setRamByte (s.ramOffset a) d).returning .unit) :=
  (exec_wrRam a d s).trans (State.ramAccess_enabled a _ _ h hs)

theorem exec_wrRam_absent {s : State} (h : s.ramEnabled = true) (hs : s.ramSize = 0) :
    exec (.wrRam a d) s = .fault (.ramAbsent a) :=
  (exec_wrRam a d s).trans (State.ramAccess_absent a _ _ h hs)

theorem exec_wrRam_next {a : Address} {d : Byte} {s t : State} (h : exec (.wrRam a d) s = .next t) :
    (s.ramEnabled = false ∧ t = s.returning .unit) ∨
      (s.ramEnabled = true ∧ 1 ≤ s.ramSize ∧ t = (s.setRamByte (s.ramOffset a) d).returning .unit) :=
  State.ramAccess_next ((exec_wrRam a d s).symm.trans h)

theorem exec_wrRam_fault {a : Address} {d : Byte} {s : State} {e : Fault} (h : exec (.wrRam a d) s = .fault e) :
    s.ramEnabled = true ∧ s.ramSize = 0 ∧ e = .ramAbsent a :=
  State.ramAccess_fault ((exec_wrRam a d s).symm.trans h)

/-- `msb2()` as one formula (40_address_decoder.md R111). -/
theorem State.msb2_eq : s.msb2 = if s.mode = .mode1 then s.secondaryBankBits.toNat else 0 := by
  unfold State.msb2
  cases s.mode <;> rfl

/-- The RAM offset lies inside the image (40_address_decoder.md R115). -/
theorem State.ramOffset_lt (h : 1 ≤ s.ramSize) : s.ramOffset a < s.ramSize := by
  have := Nat.and_le_right (n := s.msb2 * 0x2000 + a.toNat % 0x2000) (m := s.ramMask)
  rw [State.ramOffset_eq]
  unfold State.ramMask at *
  omega

end Sys2Proof.Machine
end

