-- ==== Sys2Proof/Laws/PerInstr.lean ====
section
/-! SUPPORT. A law of every operation, one lemma per constructor: the canonical word of a well-formed operation is selected
by a row of the table of 30_encoding.md R85 that carries the operation's mnemonic. -/

namespace Sys2Proof

/-- The five bits of a word that select its operation are its kind and its window (30_encoding.md R83). -/
theorem packWord_split (k : BitVec 2) (a : Address) (d : Byte) :
    packWord k a d = (k ++ window a) ++ (a.extractLsb' 0 13 ++ d) := by
  apply BitVec.eq_of_toNat_eq
  have ha := a.isLt
  have hd := d.isLt
  have hw := (window a).isLt
  have hx : (a.extractLsb' 0 13 ++ d).toNat = a.toNat % 2 ^ 13 * 2 ^ 8 + d.toNat := by
    rw [BitVec.toNat_append, ← Nat.shiftLeft_add_eq_or_of_lt hd, BitVec.extractLsb'_toNat, Nat.shiftLeft_eq,
      Nat.shiftRight_zero]
  rw [packWord_toNat, BitVec.toNat_append, BitVec.toNat_append, hx, ← Nat.shiftLeft_add_eq_or_of_lt hw,
    ← Nat.shiftLeft_add_eq_or_of_lt (by omega)]
  simp only [Nat.shiftLeft_eq, window_toNat]
  omega

/-- The mask and match test of a row looks at the five selecting bits only. -/
theorem rowSelects_packWord (k : BitVec 2) (a : Address) (d : Byte) (n : String) (m v : BitVec 5) :
    rowSelects (packWord k a d) ⟨n, m ++ (0 : BitVec 21), v ++ (0 : BitVec 21)⟩ = ((k ++ window a) &&& m == v) := by
  have hz (x : BitVec 21) : x &&& (0 : BitVec 21) = 0 := BitVec.and_zero
  rw [packWord_split, rowSelects, BitVec.and_append, hz, Bool.eq_iff_iff, beq_iff_eq, beq_iff_eq]
  exact BitVec.append_left_inj _

/-- The law: a row of the table with the operation's mnemonic selects its canonical word. -/
def Laws.RowOf.Statement (i : Instr) : Prop :=
  i.wellFormed = true → ∃ r ∈ opcodeRows, r.mnemonic = i.mnemonic ∧ rowSelects (encode i) r = true

/-- An address range of whole windows, by its first and last window. -/
theorem window_of_within {lo hi : Nat} {a : Address} (h : Address.within (lo * 0x2000) (hi * 0x2000 + 0x1FFF) a = true) :
    lo ≤ (window a).toNat ∧ (window a).toNat ≤ hi := by
  simp only [Address.within, Bool.and_eq_true, decide_eq_true_eq] at h
  rw [window_toNat]
  omega

/-- A row named by its selecting bits selects every packed word whose selecting bits it tests positively. -/
theorem Laws.RowOf.of_bits {k : BitVec 2} {a : Address} {d : Byte} {n : String} (m v : BitVec 5)
    (hr : (⟨n, m ++ (0 : BitVec 21), v ++ (0 : BitVec 21)⟩ : OpcodeRow) ∈ opcodeRows)
    (hs : ((k ++ window a) &&& m == v) = true) :
    ∃ r ∈ opcodeRows, r.mnemonic = n ∧ rowSelects (packWord k a d) r = true :=
  ⟨_, hr, rfl, by rw [rowSelects_packWord, hs]⟩

/-- A test of the selecting bits that holds for every window in a range holds for an address in that range. -/
theorem Laws.RowOf.test_of_within {lo hi : Nat} {k : BitVec 2} {a : Address} (m v : BitVec 5)
    (h : Address.within (lo * 0x2000) (hi * 0x2000 + 0x1FFF) a = true)
    (hall : ∀ w : BitVec 3, lo ≤ w.toNat → w.toNat ≤ hi → ((k ++ w) &&& m == v) = true) :
    ((k ++ window a) &&& m == v) = true :=
  hall _ (window_of_within h).1 (window_of_within h).2

theorem Laws.RowOf.rdRom0 (a : Address) : Laws.RowOf.Statement (.rdRom0 a) := fun h =>
  Laws.RowOf.of_bits (n := "RD.ROM0") 0b11110 0b00000 (by decide) (Laws.RowOf.test_of_within (lo := 0) (hi := 1) _ _ h (by decide))

theorem Laws.RowOf.rdRomX (a : Address) : Laws.RowOf.Statement (.rdRomX a) := fun h =>
  Laws.RowOf.of_bits (n := "RD.ROMX") 0b11110 0b00010 (by decide) (Laws.RowOf.test_of_within (lo := 2) (hi := 3) _ _ h (by decide))

theorem Laws.RowOf.rdNone (a : Address) : Laws.RowOf.Statement (.rdNone a) := fun h =>
  match Bool.or_eq_true_iff.mp h with
  | .inl h => Laws.RowOf.of_bits (n := "RD.NONE") 0b11111 0b00100 (by decide)
      (Laws.RowOf.test_of_within (lo := 4) (hi := 4) _ _ h (by decide))
  | .inr h => Laws.RowOf.of_bits (n := "RD.NONE") 0b11110 0b00110 (by decide)
      (Laws.RowOf.test_of_within (lo := 6) (hi := 7) _ _ h (by decide))

theorem Laws.RowOf.rdRam (a : Address) : Laws.RowOf.Statement (.rdRam a) := fun h =>
  Laws.RowOf.of_bits (n := "RD.RAM") 0b11111 0b00101 (by decide) (Laws.RowOf.test_of_within (lo := 5) (hi := 5) _ _ h (by decide))

theorem Laws.RowOf.wrRamen (a : Address) (d : Byte) : Laws.RowOf.Statement (.wrRamen a d) := fun h =>
  Laws.RowOf.of_bits (n := "WR.RAMEN") 0b11111 0b01000 (by decide) (Laws.RowOf.test_of_within (lo := 0) (hi := 0) _ _ h (by decide))

theorem Laws.RowOf.wrBank1 (a : Address) (d : Byte) : Laws.RowOf.Statement (.wrBank1 a d) := fun h =>
  Laws.RowOf.of_bits (n := "WR.BANK1") 0b11111 0b01001 (by decide) (Laws.RowOf.test_of_within (lo := 1) (hi := 1) _ _ h (by decide))

theorem Laws.RowOf.wrBank2 (a : Address) (d : Byte) : Laws.RowOf.Statement (.wrBank2 a d) := fun h =>
  Laws.RowOf.of_bits (n := "WR.BANK2") 0b11111 0b01010 (by decide) (Laws.RowOf.test_of_within (lo := 2) (hi := 2) _ _ h (by decide))

theorem Laws.RowOf.wrMode (a : Address) (d : Byte) : Laws.RowOf.Statement (.wrMode a d) := fun h =>
  Laws.RowOf.of_bits (n := "WR.MODE") 0b11111 0b01011 (by decide) (Laws.RowOf.test_of_within (lo := 3) (hi := 3) _ _ h (by decide))

theorem Laws.RowOf.wrNone (a : Address) (d : Byte) : Laws.RowOf.Statement (.wrNone a d) := fun h =>
  match Bool.or_eq_true_iff.mp h with
  | .inl h => Laws.RowOf.of_bits (n := "WR.NONE") 0b11111 0b01100 (by decide)
      (Laws.RowOf.test_of_within (lo := 4) (hi := 4) _ _ h (by decide))
  | .inr h => Laws.RowOf.of_bits (n := "WR.NONE") 0b11110 0b01110 (by decide)
      (Laws.RowOf.test_of_within (lo := 6) (hi := 7) _ _ h (by decide))

theorem Laws.RowOf.wrRam (a : Address) (d : Byte) : Laws.RowOf.Statement (.wrRam a d) := fun h =>
  Laws.RowOf.of_bits (n := "WR.RAM") 0b11111 0b01101 (by decide) (Laws.RowOf.test_of_within (lo := 5) (hi := 5) _ _ h (by decide))

theorem Laws.RowOf.save : Laws.RowOf.Statement .save := fun _ =>
  Laws.RowOf.of_bits (n := "SAVE") 0b11000 0b10000 (by decide) (by decide)

theorem Laws.RowOf.load : Laws.RowOf.Statement .load := fun _ =>
  Laws.RowOf.of_bits (n := "LOAD") 0b11000 0b11000 (by decide) (by decide)

end Sys2Proof
end

