-- ==== Sys2Proof/Laws/Ports.lean ====
section
/-! SUPPORT. What the port functions of window 5 give, case by case, and `responds` by address. -/

namespace Sys2Proof.Machine

theorem State.ramReadPort_disabled {s : State} (a : Address) (h : s.ramEnabled = false) :
    s.ramReadPort a = some openBus := by
  simp [State.ramReadPort, h]

theorem State.ramReadPort_enabled {s : State} (a : Address) (h : s.ramEnabled = true) (hs : 1 ≤ s.ramSize) :
    s.ramReadPort a = some (s.ramByte (s.ramOffset a)) := by
  simp [State.ramReadPort, h, Nat.ne_of_gt hs]

/-- The read that faults has no result (40_address_decoder.md R123). -/
theorem State.ramReadPort_absent {s : State} (a : Address) (h : s.ramEnabled = true) (hs : s.ramSize = 0) :
    s.ramReadPort a = none := by
  simp [State.ramReadPort, h, hs]

theorem State.ramOffPort_present {s : State} (a : Address) (hs : 1 ≤ s.ramSize) :
    s.ramOffPort a = some (s.ramOffset a) := by
  simp [State.ramOffPort, Nat.ne_of_gt hs]

theorem State.ramOffPort_absent {s : State} (a : Address) (hs : s.ramSize = 0) : s.ramOffPort a = none := by
  simp [State.ramOffPort, hs]

/-- `responds` by address ranges (40_address_decoder.md R125). -/
theorem State.responds_iff (s : State) (a : Address) :
    s.responds a = true ↔ a.toNat < 0x8000 ∨ (a.toNat / 0x2000 = 5 ∧ s.ramEnabled = true ∧ 1 ≤ s.ramSize) := by
  unfold State.responds
  simp only [window_eq_iff, BitVec.ofNat_eq_ofNat, BitVec.toNat_ofNat]
  repeat' split
  all_goals simp [*]
  all_goals omega

end Sys2Proof.Machine
end

