-- ==== Sys2Proof/Laws/Run.lean ====
section
/-! SUPPORT. Runs of the machine, one step at a time. -/

namespace Sys2Proof.Machine

theorem run_zero (s : State) : core.run 0 s = .next s := rfl

/-- A run goes on from the state its first step answers. -/
theorem run_succ_of_next {s t : State} (h : step s = .next t) (k : Nat) : core.run (k + 1) s = core.run k t := by
  have h' : core.step s = .next t := h
  exact (Host.Core.run.eq_2 core s k).trans (by rw [h'])

/-- A run that answers a state did so through its first step. -/
theorem run_succ_next {s t : State} {k : Nat} (h : core.run (k + 1) s = .next t) :
    ∃ u, step s = .next u ∧ core.run k u = .next t := by
  have h' := (Host.Core.run.eq_2 core s k).symm.trans h
  split at h'
  · rename_i u hu
    exact ⟨u, hu, h'⟩
  · cases h'
  · cases h'

/-- A run of one step is that step, whatever it answers. -/
theorem run_one (s : State) : core.run 1 s = step s := by
  refine (Host.Core.run.eq_2 core s 0).trans ?_
  split <;> rename_i h <;> exact h.symm

/-- The first step of a run performs the first operation of its stream. -/
theorem step_of_fetch {s : State} {r : Request} {rest : List Request} {i : Instr} (hs : s.stream = r :: rest)
    (hf : fetch r = .ok i) : step s = exec i (s.take r rest) := by
  simp [step, hs, hf]

end Sys2Proof.Machine
end

