-- ==== Sys2Proof/Tests/Slice0.lean ====
section
/-! SUPPORT. Tests. Expected results are the spec's own vectors (95_test_vectors.md, named in each comment) or hand
calculation from the rule named. The `witness_` theorems show, for a statement with hypotheses, concrete values that meet
all of them together, at the boundaries of its clauses. -/

namespace Sys2Proof.Tests

open Sys2Proof.Machine

/-! ## Well-formedness: one ill-formed term for each check -/

theorem test_ill_formed_rdRom0 : (Instr.rdRom0 0x4000).wellFormed = false := by decide
theorem test_ill_formed_rdRomX : (Instr.rdRomX 0x3FFF).wellFormed = false ∧ (Instr.rdRomX 0x8000).wellFormed = false := by
  decide
theorem test_ill_formed_rdNone : (Instr.rdNone 0x7FFF).wellFormed = false ∧ (Instr.rdNone 0xA000).wellFormed = false ∧
    (Instr.rdNone 0xBFFF).wellFormed = false := by decide
theorem test_ill_formed_rdRam : (Instr.rdRam 0x9FFF).wellFormed = false ∧ (Instr.rdRam 0xC000).wellFormed = false := by
  decide
theorem test_ill_formed_wrRamen : (Instr.wrRamen 0x2000 0x0A).wellFormed = false := by decide
theorem test_ill_formed_wrBank1 : (Instr.wrBank1 0x1FFF 1).wellFormed = false ∧
    (Instr.wrBank1 0x4000 1).wellFormed = false := by decide
theorem test_ill_formed_wrBank2 : (Instr.wrBank2 0x3FFF 1).wellFormed = false ∧
    (Instr.wrBank2 0x6000 1).wellFormed = false := by decide
theorem test_ill_formed_wrMode : (Instr.wrMode 0x5FFF 1).wellFormed = false ∧
    (Instr.wrMode 0x8000 1).wellFormed = false := by decide
theorem test_ill_formed_wrNone : (Instr.wrNone 0x7FFF 0).wellFormed = false ∧
    (Instr.wrNone 0xA000 0).wellFormed = false := by decide
theorem test_ill_formed_wrRam : (Instr.wrRam 0x9FFF 0).wellFormed = false ∧
    (Instr.wrRam 0xC000 0).wellFormed = false := by decide

/-! ## Decoding: words written out bit by bit as `kind addr data` (30_encoding.md R82), and the vectors V8, V5, V6 -/

/-- kind 00, addr 0011 1111 1111 1111, data ignored (V8.2). -/
theorem test_decode_rdRom0 : decodeTableWord 32 0b00_0011111111111111_00000000 = some (.rdRom0 0x3FFF) := by decide
/-- kind 00, addr 0111 1111 1111 1111, data 1010 1011 ignored (V8.4). -/
theorem test_decode_rdRomX : decodeTableWord 32 0b00_0111111111111111_10101011 = some (.rdRomX 0x7FFF) := by decide
/-- kind 00, addr 1000... and 1110... (rows 3 and 5; V6.1, V8.6). -/
theorem test_decode_rdNone : decodeTableWord 32 0b00_1000000000000000_00000000 = some (.rdNone 0x8000) ∧
    decodeTableWord 32 0b00_1110000000000000_00000000 = some (.rdNone 0xE000) := by decide
/-- kind 00, addr 1010 0001 0000 0000 (V8.5). -/
theorem test_decode_rdRam : decodeTableWord 32 0b00_1010000100000000_00000000 = some (.rdRam 0xA100) := by decide
/-- kind 01, addr 0000 0000 0000 1010, data 0000 1010 (V8.7). -/
theorem test_decode_wrRamen : decodeTableWord 32 0b01_0000000000001010_00001010 = some (.wrRamen 0x000A 0x0A) := by
  decide
/-- kind 01, addr 0010 0000 0000 0000, data 0000 0011 (V8.8). -/
theorem test_decode_wrBank1 : decodeTableWord 32 0b01_0010000000000000_00000011 = some (.wrBank1 0x2000 0x03) := by
  decide
/-- kind 01, addr 0100 0000 0000 0000, data 0000 0010 (V8.9). -/
theorem test_decode_wrBank2 : decodeTableWord 32 0b01_0100000000000000_00000010 = some (.wrBank2 0x4000 0x02) := by
  decide
/-- kind 01, addr 0110 0000 0000 0000, data 0000 0001 (V8.10). -/
theorem test_decode_wrMode : decodeTableWord 32 0b01_0110000000000000_00000001 = some (.wrMode 0x6000 0x01) := by decide
/-- kind 01, addr 1000... and 1111... (rows 10 and 12; V8.12, V6.7). -/
theorem test_decode_wrNone : decodeTableWord 32 0b01_1000000000000000_00000000 = some (.wrNone 0x8000 0x00) ∧
    decodeTableWord 32 0b01_1111111111111111_11111111 = some (.wrNone 0xFFFF 0xFF) := by decide
/-- kind 01, addr 1010 0001 0000 0000, data 0101 0101 (V8.11). -/
theorem test_decode_wrRam : decodeTableWord 32 0b01_1010000100000000_01010101 = some (.wrRam 0xA100 0x55) := by decide
/-- kind 10 (V8.13). -/
theorem test_decode_save : decodeTableWord 32 0b10_0000000000000000_00000000 = some .save := by decide
/-- kind 11, address and data ignored (V8.15). -/
theorem test_decode_load : decodeTableWord 32 0b11_1111111111111111_11111111 = some .load := by decide
/-- The window boundaries (V6.8, V6.9). -/
theorem test_decode_window_boundaries : decodeTableWord 32 0x07FFF00 = some (.rdRomX 0x7FFF) ∧
    decodeTableWord 32 0x0800000 = some (.rdNone 0x8000) ∧ decodeTableWord 32 0x09FFF00 = some (.rdNone 0x9FFF) ∧
    decodeTableWord 32 0x0A00000 = some (.rdRam 0xA000) ∧ decodeTableWord 32 0x0BFFF00 = some (.rdRam 0xBFFF) ∧
    decodeTableWord 32 0x0C00000 = some (.rdNone 0xC000) := by decide
/-- A number above 26 bits is no word (30_encoding.md R82). -/
theorem test_decode_no_word : decodeTableWord 32 0x4000000 = none ∧ decodeTableWord 32 0xFFFFFFFF = none := by decide
/-- The canonical words of E1's operations (95_test_vectors.md, E1, column "word"). -/
theorem test_encode_e1 : encode (.wrRamen 0x0000 0x0A) = 0x100000A ∧ encode (.wrBank1 0x2000 0x03) = 0x1200003 ∧
    encode (.rdRomX 0x4000) = 0x0400000 ∧ encode (.wrRam 0xA100 0x55) = 0x1A10055 ∧
    encode (.rdRam 0xA100) = 0x0A10000 := by decide
/-- Both tables: the row of the table that selects each of these words. -/
theorem test_rows_select : (opcodeRows.filter (rowSelects 0x0BFFFFF)).map (fun r => r.mnemonic) = ["RD.RAM"] ∧
    (opcodeRows.filter (rowSelects 0x1C00000)).map (fun r => r.mnemonic) = ["WR.NONE"] := by decide

/-! ## A small machine -/

/-- A machine with the given latches, ROM size and RAM; its ROM lists a few bytes. -/
def machine (en : Bool) (m : Mode) (low : BitVec 5) (sec : BitVec 2) (romSize ramSize : Nat) (ram : Memory) : State :=
  { ramEnabled := en, mode := m, lowBankBits := low, secondaryBankBits := sec
    ram := { size := ramSize, cells := ram }
    rom := { last := romSize - 1
             cells := [(0x3FFF, 0x11), (0x5FFF, 0x22), (0x83FFF, 0x33), (0x141555, 0x44)].filter (fun c => c.1 < romSize) }
    stream := [], host := HostSide.initial, result := .none }

/-- The next state an outcome answers. -/
def nextOf : Host.Outcome State Fault Refusal → Option State
  | .next t => some t
  | .fault _ => none
  | .refused _ => none

/-- What the operation returned. -/
def resultOf (o : Host.Outcome State Fault Refusal) : Option Result :=
  (nextOf o).map (fun t => t.result)

/-- The latches `(en, mode, low, sec)` after the operation, as 95_test_vectors.md writes them. -/
def latchesOf (o : Host.Outcome State Fault Refusal) : Option (Bool × Mode × BitVec 5 × BitVec 2) :=
  (nextOf o).map (fun t => (t.ramEnabled, t.mode, t.lowBankBits, t.secondaryBankBits))

/-- The cells of the RAM after the operation. -/
def ramOf (o : Host.Outcome State Fault Refusal) : Option Memory :=
  (nextOf o).map (fun t => t.ram.cells)

/-- The fault an outcome stops with. -/
def faultOf : Host.Outcome State Fault Refusal → Option Fault
  | .next _ => none
  | .fault f => some f
  | .refused _ => none

/-! ## The operations -/

/-- V3.8: `ROM_SIZE` 0x100000, mode 1, sec 3, address 0x3FFF gives offset 0x83FFF. -/
theorem test_rdRom0_mode1 : resultOf (exec (.rdRom0 0x3FFF) (machine false .mode1 1 3 0x100000 0x2000 [])) =
    some (.byte 0x33) := by decide
/-- V3.12: mode 0, sec 3 gives offset 0x3FFF. -/
theorem test_rdRom0_mode0 : resultOf (exec (.rdRom0 0x3FFF) (machine false .mode0 1 3 0x200000 0x2000 [])) =
    some (.byte 0x11) := by decide
/-- V2.16: sec 2, low 16, address 0x5555 gives offset 0x141555, whatever the mode. -/
theorem test_rdRomX : resultOf (exec (.rdRomX 0x5555) (machine false .mode0 16 2 0x200000 0x2000 [])) =
    some (.byte 0x44) := by decide
/-- V2.20: `ROM_SIZE` 0x6000 is no power of two, mask 0x5FFF, address 0x7FFF gives offset 0x5FFF. -/
theorem test_rdRomX_not_pow2 : resultOf (exec (.rdRomX 0x7FFF) (machine false .mode1 1 0 0x6000 0x2000 [])) =
    some (.byte 0x22) := by decide
/-- V6.1 and V6.4. -/
theorem test_rdNone : resultOf (exec (.rdNone 0x8000) (machine true .mode0 1 0 0x8000 0x2000 [(0, 0x55)])) =
    some (.byte 0xFF) := by decide
/-- V4.9: `RAM_SIZE` 0x8000, mode 1, sec 2, address 0xA800 gives offset 0x4800. -/
theorem test_rdRam_enabled :
    resultOf (exec (.rdRam 0xA800) (machine true .mode1 1 2 0x8000 0x8000 [(0x800, 0x12), (0x4800, 0x34)])) =
      some (.byte 0x34) := by decide
/-- V4.18 and V4.22: a disabled read returns 0xFF, with a RAM and without one. -/
theorem test_rdRam_disabled :
    resultOf (exec (.rdRam 0xA000) (machine false .mode0 1 0 0x8000 0x2000 [(0, 0x12)])) = some (.byte 0xFF) ∧
    resultOf (exec (.rdRam 0xA000) (machine false .mode0 1 0 0x8000 0 [])) = some (.byte 0xFF) := by decide
/-- V4.11: `RAM_SIZE` 0x800, address 0xA800 wraps to offset 0; and a written 0x00 leaves no cell. -/
theorem test_wrRam_enabled :
    ramOf (exec (.wrRam 0xA800 0xAA) (machine true .mode0 1 0 0x8000 0x800 [(1, 0x12)])) = some [(0, 0xAA), (1, 0x12)] ∧
    ramOf (exec (.wrRam 0xA801 0x00) (machine true .mode0 1 0 0x8000 0x800 [(1, 0x12)])) = some [] := by decide
/-- V4.19 and V4.21: a disabled write is dropped; with no RAM an enabled access faults. -/
theorem test_wrRam_stops :
    ramOf (exec (.wrRam 0xA000 0x12) (machine false .mode0 1 0 0x8000 0x2000 [])) = some [] ∧
    faultOf (exec (.wrRam 0xA000 0x12) (machine true .mode0 1 0 0x8000 0 [])) = some (.ramAbsent 0xA000) ∧
    faultOf (exec (.rdRam 0xBFFF) (machine true .mode0 1 0 0x8000 0 [])) = some (.ramAbsent 0xBFFF) := by decide
/-- V5.8 (0x1A enables) and V5.5 (0xA0 disables). -/
theorem test_wrRamen :
    latchesOf (exec (.wrRamen 0x0ABC 0x1A) (machine false .mode1 3 2 0x8000 0x2000 [])) = some (true, .mode1, 3, 2) ∧
    latchesOf (exec (.wrRamen 0x0000 0xA0) (machine true .mode1 3 2 0x8000 0x2000 [])) = some (false, .mode1, 3, 2) := by
  decide
/-- V5.13 (0x20 is clamped to 1) and V5.15 (0xFF stores 31). -/
theorem test_wrBank1 :
    latchesOf (exec (.wrBank1 0x2000 0x20) (machine true .mode1 3 2 0x8000 0x2000 [])) = some (true, .mode1, 1, 2) ∧
    latchesOf (exec (.wrBank1 0x3FFF 0xFF) (machine true .mode1 3 2 0x8000 0x2000 [])) = some (true, .mode1, 31, 2) := by
  decide
/-- V5.20 (0xFC stores 0, no clamp) and V5.21 (0x06 stores 2). -/
theorem test_wrBank2 :
    latchesOf (exec (.wrBank2 0x4000 0xFC) (machine true .mode1 3 2 0x8000 0x2000 [])) = some (true, .mode1, 3, 0) ∧
    latchesOf (exec (.wrBank2 0x4000 0x06) (machine true .mode1 3 1 0x8000 0x2000 [])) = some (true, .mode1, 3, 2) := by
  decide
/-- V5.24 (0xFE selects mode 0) and V5.25 (0xFF selects mode 1). -/
theorem test_wrMode :
    latchesOf (exec (.wrMode 0x7FFF 0xFE) (machine true .mode1 3 2 0x8000 0x2000 [])) = some (true, .mode0, 3, 2) ∧
    latchesOf (exec (.wrMode 0x7FFF 0xFF) (machine true .mode0 3 2 0x8000 0x2000 [])) = some (true, .mode1, 3, 2) := by
  decide
/-- V6.5: it does not enable the RAM. -/
theorem test_wrNone :
    latchesOf (exec (.wrNone 0x8000 0x0A) (machine false .mode1 3 2 0x8000 0x2000 [])) = some (false, .mode1, 3, 2) := by
  decide
/-- V7.1: `RAM_SIZE` 4, RAM disabled. -/
theorem test_save :
    resultOf (exec .save (machine false .mode0 1 0 0x8000 4 [(0, 0x11), (1, 0x22), (2, 0x33), (3, 0x44)])) =
      some (.saved [0x11, 0x22, 0x33, 0x44]) := by decide
/-- The four-byte machine of V7 with what travels beside the word. -/
def small (sink : Sink) (source : Source) : State :=
  { machine false .mode0 1 0 0x8000 4 [(0, 0x11), (1, 0x22), (2, 0x33), (3, 0x44)] with
    host := { sink := sink, source := source } }
/-- V7.2. -/
theorem test_save_fails : resultOf (exec .save (small .fails .unavailable)) = some .ioError ∧
    ramOf (exec .save (small .fails .unavailable)) = some (small .fails .unavailable).ram.cells := by decide
/-- V7.3. -/
theorem test_load : resultOf (exec .load (small .accepts (.bytes [1, 2, 3, 4]))) = some .loaded ∧
    ramOf (exec .load (small .accepts (.bytes [1, 2, 3, 4]))) = some [(0, 1), (1, 2), (2, 3), (3, 4)] := by decide
/-- V7.4, V7.5, V7.6 and V7.9: too short, too long, unavailable, and one byte for an empty RAM. -/
theorem test_load_fails : resultOf (exec .load (small .accepts (.bytes [1, 2, 3]))) = some .ioError ∧
    ramOf (exec .load (small .accepts (.bytes [1, 2, 3, 4, 5]))) = some (small .accepts .unavailable).ram.cells ∧
    resultOf (exec .load (small .accepts .unavailable)) = some .ioError ∧
    resultOf (exec .load { machine false .mode0 1 0 0x8000 0 [] with
      host := { sink := .accepts, source := .bytes [0] } }) = some .ioError := by decide

/-! ## The step, reset, ports, pseudo-operations -/

/-- The word of each row of the table runs as the first operation after reset. -/
theorem test_rows_run_at_reset : ∀ w ∈ [0x0000000, 0x0400000, 0x0800000, 0x0A00000, 0x0C00000, 0x1000000, 0x1200000,
    0x1400000, 0x1600000, 0x1800000, 0x1A00000, 0x1C00000, 0x2000000, 0x3000000],
    (nextOf (step (State.reset.withFetchWord 32 w))).isSome = true := by decide
/-- R181: a 17-bit address and a 9-bit data value are refused, not cut to 0x4000 and 0x0A. -/
theorem test_step_refuses_wide :
    nextOf (step { machine true .mode0 1 0 0x8000 4 [] with stream := [Request.read 0x14000] }) = none ∧
    nextOf (step { machine true .mode0 1 0 0x8000 4 [] with stream := [Request.write 0 0x10A] }) = none := by decide
/-- R91: ROMBANK 0x20 shows unmasked bank 0x21. -/
theorem test_romBank : latchesOf (core.run 2 { machine true .mode0 7 0 0x8000 4 [] with
    stream := (Pseudo.romBank 0x20).expand }) = some (true, .mode0, 1, 1) := by decide
/-- V4.18 and V4.20: `responds` tells a disabled read from a stored 0xFF. -/
theorem test_responds : (ports (.rdRam 0xA000) (machine false .mode0 1 0 0x8000 4 [(0, 0xFF)])).responds = false ∧
    (ports (.rdRam 0xA000) (machine true .mode0 1 0 0x8000 4 [(0, 0xFF)])).responds = true := by decide
/-- R123: the read that faults puts no value on `rdata`; R66: the disabled one puts the sentinel there. -/
theorem test_rdata_of_a_faulting_read : (ports (.rdRam 0xA000) (machine true .mode0 1 0 0x8000 0 [])).rdata = none ∧
    (ports (.rdRam 0xA000) (machine false .mode0 1 0 0x8000 0 [])).rdata = some 0xFF := by decide
/-- A read of an unlisted offset, and a write below, at and above the listed ones. -/
theorem test_memory_write : Memory.write [(3, 1), (5, 2)] 4 9 = [(3, 1), (4, 9), (5, 2)] ∧
    Memory.write [(3, 1), (5, 2)] 5 0 = [(3, 1)] ∧ Memory.write [(3, 1), (5, 2)] 6 7 = [(3, 1), (5, 2), (6, 7)] ∧
    Memory.read [(3, 1), (5, 2)] 4 = 0 := by decide
/-- The canonical form refuses a listed 0x00, a repeated or falling offset, and an offset outside the image. -/
theorem test_memory_wf : Memory.wf 8 [(3, 1), (5, 2)] = true ∧ Memory.wf 8 [(3, 0)] = false ∧
    Memory.wf 8 [(3, 1), (3, 2)] = false ∧ Memory.wf 8 [(5, 1), (3, 2)] = false ∧ Memory.wf 8 [(8, 1)] = false := by
  decide

/-! ## Witnesses: values that meet a statement's hypotheses together -/

/-- A machine with its RAM enabled and one byte in it. -/
def live : State := machine true .mode1 31 3 0x200000 0x8000 [(0x7FFF, 0x99)]
/-- The same with its RAM disabled. -/
def gated : State := machine false .mode0 1 0 0x8000 1 [(0, 0x42)]
/-- A machine without RAM, enabled. -/
def noRam : State := machine true .mode0 1 0 0x200000 0 []

theorem witness_DecodeOfEncode : (Instr.rdRom0 0x3FFF).wellFormed = true ∧ (Instr.rdRomX 0x4000).wellFormed = true ∧
    (Instr.rdNone 0x9FFF).wellFormed = true ∧ (Instr.rdNone 0xC000).wellFormed = true ∧
    (Instr.rdRam 0xBFFF).wellFormed = true ∧ (Instr.wrRamen 0x1FFF 0xFF).wellFormed = true ∧
    (Instr.wrBank1 0x2000 0xFF).wellFormed = true ∧ (Instr.wrBank2 0x5FFF 0xFF).wellFormed = true ∧
    (Instr.wrMode 0x7FFF 0xFF).wellFormed = true ∧ (Instr.wrNone 0xFFFF 0xFF).wellFormed = true ∧
    (Instr.wrRam 0xA000 0xFF).wellFormed = true ∧ Instr.save.wellFormed = true ∧ Instr.load.wellFormed = true := by
  decide

theorem witness_DecodedIsWellFormed : decodeFields 1 0xFFFF 0xFF = .ok (.wrNone 0xFFFF 0xFF) ∧
    decodeFields 0 0xFFFF 0x100 = .ok (.rdNone 0xFFFF) ∧ decodeFields 3 0x10000 0x100 = .ok .load := by decide

theorem witness_NoOperationAbove26Bits : 2 ^ 26 ≤ 0x4000000 ∧ ¬ 2 ^ 26 ≤ 0x3FFFFFF := by decide

theorem witness_StepPerformsTheNextOperation :
    ({ live with stream := [Request.read 0xA000] }).stream = Request.read 0xA000 :: [] ∧
    decodeFields (Request.read 0xA000).kind (Request.read 0xA000).address (Request.read 0xA000).data =
      .ok (.rdRam 0xA000) := by decide

theorem witness_FetchedWordIsPerformed : decodeTableWord 32 0x1A10055 = some (.wrRam 0xA100 0x55) ∧ live.stream = [] ∧
    ({ live with stream := [Request.read 0] }).stream = Request.read 0 :: [] := by decide

/-- The addresses at which neighbouring clauses meet; each lies under one read clause and one write clause. -/
theorem witness_StepDispatchesByWindow :
    (0x3FFF#16).toNat ≤ 0x3FFF ∧ (0x4000 ≤ (0x7FFF#16).toNat ∧ (0x7FFF#16).toNat ≤ 0x7FFF) ∧
    (0x8000 ≤ (0x9FFF#16).toNat ∧ (0x9FFF#16).toNat ≤ 0x9FFF) ∧
    (0xA000 ≤ (0xBFFF#16).toNat ∧ (0xBFFF#16).toNat ≤ 0xBFFF) ∧ 0xC000 ≤ (0xC000#16).toNat ∧
    (0x1FFF#16).toNat ≤ 0x1FFF ∧ (0x2000 ≤ (0x2000#16).toNat ∧ (0x2000#16).toNat ≤ 0x3FFF) ∧
    (0x4000 ≤ (0x5FFF#16).toNat ∧ (0x5FFF#16).toNat ≤ 0x5FFF) ∧
    (0x6000 ≤ (0x6000#16).toNat ∧ (0x6000#16).toNat ≤ 0x7FFF) := by decide

theorem witness_WideOperandsAreRefused : 2 ^ 16 ≤ 0x10000 ∧ 2 ^ 8 ≤ 0x100 ∧ ¬ 2 ^ 16 ≤ 0xFFFF ∧ ¬ 2 ^ 8 ≤ 0xFF := by
  decide

theorem witness_ExhaustedStreamEndsTheRun : live.stream = [] := by decide

theorem witness_ConstructionSetsTheState : [(0x55 : Byte)] ≠ [] ∧ 1 ≤ [(0x12 : Byte)].length ∧
    ∃ t, step { live with stream := [Request.write 0xBFFF 0x12] } = .next t := ⟨by decide, by decide, _, rfl⟩

theorem witness_ReadsAfterConstruction : ∃ t, State.construct [0x11, 0x22] [] = .next t := ⟨_, rfl⟩

theorem witness_StepKeepsInvariant : live.Inv ∧
    (∃ t, step { live with stream := [Request.write 0xBFFF 0x00] } = .next t) ∧
    ∃ t, step { live with stream := [Request.write 0x2000 0x00] } = .next t := ⟨by decide, ⟨_, rfl⟩, _, rfl⟩

theorem witness_LowBankIsNeverZero : (∃ s, State.construct [0x11] [] = .next s ∧
    ∃ t, core.run 1 { s with stream := [Request.write 0x2000 0xE0] } = .next t) ∧ 1 ≤ live.lowBankBits.toNat ∧
    ∃ t, step { live with stream := [Request.write 0x3FFF 0xFF] } = .next t :=
  ⟨⟨_, rfl, _, rfl⟩, by decide, _, rfl⟩

theorem witness_RdRom0ReadsTheLowRegion : gated.mode = .mode0 ∧
    (machine true .mode1 1 3 0x80000 0 []).romSize ≤ 0x80000 := by decide

theorem witness_RdRomXReadsTheSwitchableRegion : gated.lowBankBits ≠ 0 ∧ live.lowBankBits ≠ 0 := by decide

theorem witness_RdRamReadsBehindTheGate : gated.ramEnabled = false ∧ (live.ramEnabled = true ∧ 1 ≤ live.ramSize) ∧
    ((machine true .mode1 1 3 1 1 []).ramEnabled = true ∧ 1 ≤ (machine true .mode1 1 3 1 1 []).ramSize) ∧
    noRam.ramEnabled = true ∧ noRam.ramSize = 0 := by decide

theorem witness_WrRamWritesBehindTheGate : gated.ramEnabled = false ∧
    (live.ramEnabled = true ∧ 1 ≤ live.ramSize ∧ live.Inv) ∧ noRam.ramEnabled = true ∧ noRam.ramSize = 0 := by decide

theorem witness_SaveEmitsTheImage : (small .accepts .unavailable).host.sink = .accepts ∧
    3 < (small .accepts .unavailable).ramSize := by decide

theorem witness_FailedSaveChangesNothing : (small .fails .unavailable).host.sink = .fails := by decide

theorem witness_LoadReplacesTheImage : (small .accepts (.bytes [0, 2, 3, 4])).host.source = .bytes [0, 2, 3, 4] ∧
    [(0 : Byte), 2, 3, 4].length = (small .accepts (.bytes [0, 2, 3, 4])).ramSize := by decide

theorem witness_FailedLoadChangesNothing : (small .accepts .unavailable).host.source = .unavailable ∧
    [(1 : Byte), 2, 3].length ≠ (small .accepts (.bytes [1, 2, 3])).ramSize ∧
    [(1 : Byte), 2, 3, 4, 5].length ≠ (small .accepts (.bytes [1, 2, 3, 4, 5])).ramSize := by decide

theorem witness_SaveThenLoadRestoresTheImage :
    (machine true .mode0 1 0 0x8000 4 [(0, 0x11), (3, 0x44)]).Inv ∧
    (∃ t, exec .save (machine true .mode0 1 0 0x8000 4 [(0, 0x11), (3, 0x44)]) = .next t ∧
      t.result = .saved [0x11, 0, 0, 0x44]) ∧
    (small .fails (.bytes [0x11, 0, 0, 0x44])).ramSize = (machine true .mode0 1 0 0x8000 4 [(0, 0x11), (3, 0x44)]).ramSize ∧
    (small .fails (.bytes [0x11, 0, 0, 0x44])).host.source = .bytes [0x11, 0, 0, 0x44] :=
  ⟨by decide, ⟨_, rfl, by decide⟩, by decide, by decide⟩

theorem witness_OffsetsStayInsideTheImages : live.decodeAddress 0x7FFF = .romOff 0x1FFFFF ∧
    live.decodeAddress 0x3FFF = .romOff 0x183FFF ∧ live.decodeAddress 0xBFFF = .ramOff 0x7FFF ∧
    live.decodeAddress 0xC000 = .noData ∧ noRam.decodeAddress 0xA000 = .ramUndefined := by decide

theorem witness_OffsetsWrapModuloTheSizes : live.Pow2Sizes ∧ gated.Pow2Sizes :=
  ⟨⟨⟨21, by decide⟩, ⟨15, by decide⟩⟩, ⟨⟨15, by decide⟩, ⟨0, by decide⟩⟩⟩

theorem witness_PhysicalRomBanks : (IsPow2 gated.romSize ∧ gated.romSize = 2 * 0x4000) ∧
    IsPow2 live.romSize ∧ live.romSize = 128 * 0x4000 :=
  ⟨⟨⟨15, by decide⟩, by decide⟩, ⟨21, by decide⟩, by decide⟩

theorem witness_SwitchableRegionAndBankZero : (live.Inv ∧ live.romSize = 128 * 0x4000) ∧
    (gated.Inv ∧ gated.romSize = 2 * 0x4000) ∧
    ((machine true .mode0 1 0 0x80000 0 []).Inv ∧ (machine true .mode0 1 0 0x80000 0 []).romSize = 32 * 0x4000) ∧
    (machine true .mode0 2 0 0x8000 0 []).Inv ∧ (machine true .mode0 2 0 0x8000 0 []).romSize = 2 * 0x4000 ∧
    (machine true .mode0 2 0 0x8000 0 []).lowBankBits.toNat % 2 = 0 := by decide

theorem witness_WriteThenReadReturnsTheByte : live.Inv ∧ 1 ≤ live.ramSize ∧ live.ramEnabled = true ∧
    ∃ t, exec (.wrRam 0xBFFF 0x00) live = .next t := ⟨by decide, by decide, by decide, _, rfl⟩

theorem witness_ReadsHaveNoSideEffects : (∃ t, exec (.rdRom0 0x3FFF) live = .next t) ∧
    (∃ t, exec (.rdRomX 0x7FFF) live = .next t) ∧ (∃ t, exec (.rdRam 0xBFFF) live = .next t) ∧
    (∃ t, exec (.rdNone 0xFFFF) live = .next t) ∧
    live.sameBlock { live with stream := [Request.read 0], result := .unit } :=
  ⟨⟨_, rfl⟩, ⟨_, rfl⟩, ⟨_, rfl⟩, ⟨_, rfl⟩, by decide⟩

theorem witness_LatchesChangeOnlyByTheirOwnWrite :
    (∃ t, exec (.wrRamen 0 0) live = .next t ∧ t.ramEnabled ≠ live.ramEnabled) ∧
    (∃ t, exec (.wrBank1 0x2000 0) live = .next t ∧ t.lowBankBits ≠ live.lowBankBits) ∧
    (∃ t, exec (.wrBank2 0x4000 0) live = .next t ∧ t.secondaryBankBits ≠ live.secondaryBankBits) ∧
    (∃ t, exec (.wrMode 0x6000 0) live = .next t ∧ t.mode ≠ live.mode) :=
  ⟨⟨_, rfl, by decide⟩, ⟨_, rfl, by decide⟩, ⟨_, rfl, by decide⟩, ⟨_, rfl, by decide⟩⟩

theorem witness_RomIsConstantAndReadByRomReadsOnly : (∃ t, exec (.rdRomX 0x4000) live = .next t) ∧
    (∀ a, Instr.wrRam 0xA000 1 ≠ .rdRom0 a ∧ Instr.wrRam 0xA000 1 ≠ .rdRomX a) ∧
    (∃ t, exec (.wrRam 0xA000 1) live = .next t) ∧ ∃ f, exec (.wrRam 0xA000 1) noRam = .fault f :=
  ⟨⟨_, rfl⟩, fun _ => ⟨by simp, by simp⟩, ⟨_, rfl⟩, _, rfl⟩

theorem witness_RamChangesOnlyByWriteAndLoad : (∃ t, exec (.wrRam 0xA000 1) live = .next t ∧ t.ram ≠ live.ram) ∧
    ∃ t, exec .load (small .accepts (.bytes [1, 2, 3, 4])) = .next t ∧
      t.ram ≠ (small .accepts (.bytes [1, 2, 3, 4])).ram := ⟨⟨_, rfl, by decide⟩, _, rfl, by decide⟩

theorem witness_DisabledRamIsIsolated : gated.ramEnabled = false ∧ Instr.wrRam 0xA000 1 ≠ .save ∧
    Instr.wrRam 0xA000 1 ≠ .load := by decide

theorem witness_IgnoredBitsChangeNothing : (0x0A#8).toNat % 16 = (0xFA#8).toNat % 16 ∧
    (0x00#8).toNat % 32 = (0xE0#8).toNat % 32 ∧ (0x03#8).toNat % 4 = (0xFF#8).toNat % 4 ∧
    (0x01#8).toNat % 2 = (0xFF#8).toNat % 2 := by decide

theorem witness_RepeatedWriteIsIdempotent : live.Inv ∧ (∃ t, exec (.wrRam 0xBFFF 0) live = .next t) ∧
    ∃ t, exec (.wrMode 0x7FFF 0) live = .next t := ⟨by decide, ⟨_, rfl⟩, _, rfl⟩

theorem witness_ControlWritesCommute : (0x1FFF#16).toNat < 0x8000 ∧ (0x2000#16).toNat < 0x8000 ∧
    (0x1FFF#16).toNat / 0x2000 ≠ (0x2000#16).toNat / 0x2000 ∧ (0x7FFF#16).toNat < 0x8000 ∧
    (0x5FFF#16).toNat / 0x2000 ≠ (0x7FFF#16).toNat / 0x2000 := by decide

theorem witness_LatchWriteIsSeenByTheNextOperation : 1 ≤ live.ramSize ∧ live.ramEnabled = true ∧
    (0x7FFF#16).toNat < 0x8000 ∧ (0x4000#16).toNat / 0x4000 = 1 ∧ (0x7FFF#16).toNat / 0x4000 = 1 ∧
    (0x3FFF#16).toNat / 0x4000 = 0 ∧ (0xA000#16).toNat / 0x2000 = 5 ∧ (0xBFFF#16).toNat / 0x2000 = 5 ∧
    (0xFA#8).toNat % 16 = 0xA ∧ (0x0B#8).toNat % 16 ≠ 0xA := by decide

theorem witness_LatchWriteIsSeenByTheNextRamWrite : live.Inv ∧ 1 ≤ live.ramSize ∧ live.ramEnabled = true ∧
    (0xA000#16).toNat / 0x2000 = 5 ∧ (0xBFFF#16).toNat / 0x2000 = 5 ∧ (0xFA#8).toNat % 16 = 0xA ∧
    (0x0B#8).toNat % 16 ≠ 0xA := by decide

theorem witness_OnlyRamAbsentStops : noRam.ramEnabled = true ∧ noRam.ramSize = 0 ∧
    (∃ f, exec (.rdRam 0xA000) noRam = .fault f) ∧ ∃ f, exec (.wrRam 0xBFFF 0) noRam = .fault f :=
  ⟨by decide, by decide, ⟨_, rfl⟩, _, rfl⟩

theorem witness_EveryAccessCompletes : gated.HasRam ∧ (Request.write 0xFFFF 0xFF).kind ≤ 1 ∧
    (Request.write 0xFFFF 0xFF).address < 2 ^ 16 ∧ (Request.write 0xFFFF 0xFF).data < 2 ^ 8 ∧
    (Request.save .fails).kind = 2 ∧ (Request.load .unavailable).kind = 3 ∧
    ({ gated with stream := [Request.write 0xFFFF 0xFF] }).stream = Request.write 0xFFFF 0xFF :: [] := by decide

theorem witness_ControlWritesWriteOneLatch : (0x1FFF#16).toNat ≤ 0x1FFF ∧
    (0x2000 ≤ (0x2000#16).toNat ∧ (0x3FFF#16).toNat ≤ 0x3FFF) ∧ (0x4000 ≤ (0x4000#16).toNat ∧ (0x5FFF#16).toNat ≤ 0x5FFF) ∧
    (0x6000 ≤ (0x6000#16).toNat ∧ (0x7FFF#16).toNat ≤ 0x7FFF) := by decide

theorem witness_AccessesFollowTheDecoder : ∃ t, exec (decodeWrite 0xBFFF 7) live = .next t ∧ t.ram ≠ live.ram :=
  ⟨_, rfl, by decide⟩

theorem witness_NamedScriptLinesAreChecked : (Instr.wrBank1 0x3FFF 3).wellFormed = true ∧
    (Instr.wrBank1 0x4000 3).wellFormed = false ∧ Instr.wrBank1 0x3FFF 3 ≠ .save ∧ Instr.wrBank1 0x3FFF 3 ≠ .load ∧
    Instr.wrBank1 0x4000 3 ≠ .save ∧ Instr.wrBank1 0x4000 3 ≠ .load := by decide

theorem witness_EveryLatchStateIsReached : (1 : BitVec 5) ≠ 0 ∧ (31 : BitVec 5) ≠ 0 ∧
    [Request.write 0x6000 1, Request.write 0x0000 0x0A, Request.write 0x2000 3, Request.write 0x4000 2].Perm
      [Request.write 0x0000 (0x0A#8).toNat, Request.write 0x2000 (3#8).toNat, Request.write 0x4000 (2#8).toNat,
        Request.write 0x6000 (1#8).toNat] := by decide

theorem witness_PortsAgreeWithTheOperations :
    (∃ t, exec (decodeRead 0xBFFF) live = .next t) ∧ (∃ f, exec (decodeRead 0xA000) noRam = .fault f) ∧
    (∃ t, exec (decodeRead 0xA000) gated = .next t) ∧ (ports (decodeRead 0xA000) gated).responds = false ∧
    (0x7FFF#16).toNat < 0x8000 ∧ 0x8000 ≤ (0x8000#16).toNat ∧ (0xA000#16).toNat / 0x2000 = 5 ∧
    (0xC000#16).toNat / 0x2000 ≠ 5 ∧ 1 ≤ live.ramSize ∧ live.ramEnabled = true ∧ noRam.ramSize = 0 ∧
    (ports (.rdRomX 0x7FFF) live).romOff = some 0x1FFFFF ∧ (ports (.rdRam 0xBFFF) live).ramOff = some 0x7FFF ∧
    (∃ t, exec (.wrRam 0xBFFF 7) live = .next t) ∧ (ports (.wrRam 0xBFFF 7) live).ramWe = true ∧
    (ports (.wrRam 0xBFFF 7) gated).ramWe = false :=
  ⟨⟨_, rfl⟩, ⟨_, rfl⟩, ⟨_, rfl⟩, by decide, by decide, by decide, by decide, by decide, by decide, by decide, by decide,
    by decide, by decide, ⟨_, rfl⟩, by decide, by decide⟩

end Sys2Proof.Tests
end

section
/-! SUPPORT. Everything an operation that answers a state can have done, said once: the inversion of `exec`, and the
frames that follow from it. -/

namespace Sys2Proof.Machine

/-- `Effect s i t`: what an operation `i` that takes `s` to a next state `t` can have done, with the guards of the two
operations that store into the RAM image (40_address_decoder.md R120, 42_persistence.md R163). -/
inductive Effect (s : State) : Instr → State → Prop where
  /-- Nothing but the recorded result has changed. -/
  | returned (i : Instr) (r : Result) : Effect s i (s.returning r)
  | enableSet (a : Address) (d : Byte) :
      Effect s (.wrRamen a d) ({ s with ramEnabled := enableOf d }.returning .unit)
  | lowBankSet (a : Address) (d : Byte) :
      Effect s (.wrBank1 a d) ({ s with lowBankBits := lowBankOf d }.returning .unit)
  | secondaryBankSet (a : Address) (d : Byte) :
      Effect s (.wrBank2 a d) ({ s with secondaryBankBits := secondaryBankOf d }.returning .unit)
  | modeSet (a : Address) (d : Byte) : Effect s (.wrMode a d) ({ s with mode := modeOf d }.returning .unit)
  | byteStored (a : Address) (d : Byte) (enabled : s.ramEnabled = true) (hasRam : 1 ≤ s.ramSize) :
      Effect s (.wrRam a d) ((s.setRamByte (s.ramOffset a) d).returning .unit)
  | imageLoaded (bs : List Byte) (source : s.host.source = .bytes bs) (length : bs.length = s.ramSize) :
      Effect s .load ((s.setRamBytes bs).returning .loaded)

/-- The inversion of `exec`: a next state is the effect of the operation. -/
theorem effect_of_exec_next {i : Instr} {s t : State} (h : exec i s = .next t) : Effect s i t := by
  cases i with
  | rdRom0 a => cases h; exact .returned ..
  | rdRomX a => cases h; exact .returned ..
  | rdNone a => cases h; exact .returned ..
  | rdRam a =>
    obtain ⟨-, rfl⟩ | ⟨-, -, rfl⟩ := exec_rdRam_next h
    · exact .returned ..
    · exact .returned ..
  | wrRamen a d => cases h; exact .enableSet a d
  | wrBank1 a d => cases h; exact .lowBankSet a d
  | wrBank2 a d => cases h; exact .secondaryBankSet a d
  | wrMode a d => cases h; exact .modeSet a d
  | wrNone a d => cases h; exact .returned ..
  | wrRam a d =>
    obtain ⟨-, rfl⟩ | ⟨enabled, hasRam, rfl⟩ := exec_wrRam_next h
    · exact .returned ..
    · exact .byteStored a d enabled hasRam
  | save => cases h; exact .returned ..
  | load =>
    cases h
    obtain ⟨bs, source, length, ht⟩ | ht := loadFrom_cases s s.host.source <;> rw [ht]
    · exact .imageLoaded bs source length
    · exact .returned ..

namespace Effect

variable {s t : State} {i : Instr}

theorem wrRamen_of_ramEnabled_ne (h : Effect s i t) (hne : t.ramEnabled ≠ s.ramEnabled) :
    ∃ a d, i = .wrRamen a d := by
  cases h with
  | enableSet a d => exact ⟨a, d, rfl⟩
  | _ => exact absurd rfl hne

theorem wrBank1_of_lowBankBits_ne (h : Effect s i t) (hne : t.lowBankBits ≠ s.lowBankBits) :
    ∃ a d, i = .wrBank1 a d := by
  cases h with
  | lowBankSet a d => exact ⟨a, d, rfl⟩
  | _ => exact absurd rfl hne

theorem wrBank2_of_secondaryBankBits_ne (h : Effect s i t) (hne : t.secondaryBankBits ≠ s.secondaryBankBits) :
    ∃ a d, i = .wrBank2 a d := by
  cases h with
  | secondaryBankSet a d => exact ⟨a, d, rfl⟩
  | _ => exact absurd rfl hne

theorem wrMode_of_mode_ne (h : Effect s i t) (hne : t.mode ≠ s.mode) : ∃ a d, i = .wrMode a d := by
  cases h with
  | modeSet a d => exact ⟨a, d, rfl⟩
  | _ => exact absurd rfl hne

/-- A bus read changes nothing of the block (20_memory.md R57). -/
theorem sameBlock_of_read {a : Address} (h : Effect s i t)
    (hi : i = .rdRom0 a ∨ i = .rdRomX a ∨ i = .rdRam a ∨ i = .rdNone a) : s.sameBlock t := by
  obtain rfl | rfl | rfl | rfl := hi
  all_goals
    cases h
    exact ⟨rfl, rfl, rfl, rfl, rfl, rfl⟩

theorem sameBlock_of_wrNone {a : Address} {d : Byte} (h : Effect s (.wrNone a d) t) : s.sameBlock t := by
  cases h
  exact ⟨rfl, rfl, rfl, rfl, rfl, rfl⟩

/-- WR.RAM changes at most the RAM image. -/
theorem sameBlock_but_ram_of_wrRam {a : Address} {d : Byte} (h : Effect s (.wrRam a d) t) :
    s.sameBlock { t with ram := s.ram } := by
  cases h <;> exact ⟨rfl, rfl, rfl, rfl, rfl, rfl⟩

/-- SAVE and LOAD change at most the RAM image. -/
theorem sameBlock_but_ram_of_persistence (h : Effect s i t) (hi : i = .save ∨ i = .load) :
    s.sameBlock { t with ram := s.ram } := by
  obtain rfl | rfl := hi
  all_goals cases h <;> exact ⟨rfl, rfl, rfl, rfl, rfl, rfl⟩

theorem rom_eq (h : Effect s i t) : t.rom = s.rom := by
  cases h <;> rfl

/-- The clamp of WR.BANK1 keeps the low bank latch off 0, and nothing else writes it (10_state.md R29). -/
theorem lowBankBits_ne_zero (h : Effect s i t) (hs : s.lowBankBits ≠ 0) : t.lowBankBits ≠ 0 := by
  cases h with
  | lowBankSet a d => exact lowBankOf_ne_zero d
  | _ => exact hs

end Effect

end Sys2Proof.Machine
end

section
/-! PROOF. What changes the latches (10_state.md R35). -/

namespace Sys2Proof.Machine

/-- Settles O42: each clause is a frame of the operation's effect. -/
theorem latchesChangeOnlyByTheirOwnWrite : Obligations.LatchesChangeOnlyByTheirOwnWrite := by
  intro i s t h
  have he := effect_of_exec_next h
  refine ⟨he.wrRamen_of_ramEnabled_ne, he.wrBank1_of_lowBankBits_ne, he.wrBank2_of_secondaryBankBits_ne,
    he.wrMode_of_mode_ne, fun _ => he.sameBlock_of_read, ?_, ?_, he.sameBlock_but_ram_of_persistence⟩
  · rintro a d rfl
    exact he.sameBlock_but_ram_of_wrRam
  · rintro a d rfl
    exact he.sameBlock_of_wrNone

end Sys2Proof.Machine
end

section
/-! PROOF. The low bank latch along every run (10_state.md R29). -/

namespace Sys2Proof.Machine

/-- A predicate that every step keeps holds at the end of every run that starts in it. -/
theorem run_keeps {P : State → Prop} (hstep : ∀ s t, P s → step s = .next t → P t) {k : Nat} {s t : State}
    (hs : P s) (h : core.run k s = .next t) : P t := by
  induction k generalizing s with
  | zero =>
    cases (run_zero s).symm.trans h
    exact hs
  | succ k ih =>
    obtain ⟨u, hu, hrun⟩ := run_succ_next h
    exact ih (hstep s u hs hu) hrun

/-- A construction that answers a state had a ROM image of at least one byte, and the state is a new controller over it
(70_reset_and_hazards.md R211, R212). -/
theorem construct_next {rom init : List Byte} {s : State} (h : State.construct rom init = .next s) :
    ∃ b bs, rom = b :: bs ∧ s = State.fresh b bs init := by
  cases rom with
  | nil => cases h
  | cons b bs =>
    cases h
    exact ⟨b, bs, rfl, rfl⟩

theorem step_lowBankBits_ne_zero (s t : State) (hs : s.lowBankBits ≠ 0) (h : step s = .next t) :
    t.lowBankBits ≠ 0 := by
  obtain ⟨r, rest, i, -, -, hexec⟩ := step_next h
  exact (effect_of_exec_next hexec).lowBankBits_ne_zero hs

/-- A 5-bit latch holds one of the legal values 1 to 31 exactly when it is not 0. -/
theorem toNat_legal_of_ne_zero {x : BitVec 5} (h : x ≠ 0) : 1 ≤ x.toNat ∧ x.toNat ≤ 31 := by
  have := x.isLt
  have : x.toNat ≠ 0 := fun e => h (BitVec.eq_of_toNat_eq e)
  omega

/-- Settles O18: the latch is 1 at construction, and the clamp of WR.BANK1 keeps it off 0 at every step. -/
theorem lowBankIsNeverZero : Obligations.LowBankIsNeverZero := by
  constructor
  · intro rom init ops k s t hnew hrun
    obtain ⟨b, bs, -, rfl⟩ := construct_next hnew
    have hstart : (1 : BitVec 5) ≠ 0 := by decide
    exact toNat_legal_of_ne_zero (run_keeps (P := (·.lowBankBits ≠ 0)) step_lowBankBits_ne_zero hstart hrun)
  · intro s t hs hstep
    have hs0 : s.lowBankBits ≠ 0 := by
      intro e
      simp [e] at hs
    exact toNat_legal_of_ne_zero (step_lowBankBits_ne_zero s t hs0 hstep)

end Sys2Proof.Machine
end

section
/-! PROOF. The ROM image is a constant, and only the two ROM reads look at it (10_state.md R26). -/

namespace Sys2Proof.Machine

/-- An outcome with its next state, if it has one, replaced by `f` of it; a fault or a refusal is as it was. -/
def mapNext (f : State → State) : Host.Outcome State Fault Refusal → Host.Outcome State Fault Refusal
  | .next t => .next (f t)
  | .fault e => .fault e
  | .refused e => .refused e

/-- The state with another ROM image in the place of its own. -/
def State.withRom (rom : RomImage) (s : State) : State :=
  { s with rom := rom }

/-- The RAM gate does not look at the ROM image. -/
theorem ramAccess_withRom (rom : RomImage) (s : State) (a : Address) (d : State) (f : Nat → State) :
    (s.withRom rom).ramAccess a (d.withRom rom) (fun off => (f off).withRom rom) =
      mapNext (State.withRom rom) (s.ramAccess a d f) := by
  cases he : s.ramEnabled with
  | false => rw [State.ramAccess_disabled a _ _ he, State.ramAccess_disabled (s := s.withRom rom) a _ _ he]; rfl
  | true =>
    rcases Nat.eq_zero_or_pos s.ramSize with hs | hs
    · rw [State.ramAccess_absent a _ _ he hs, State.ramAccess_absent (s := s.withRom rom) a _ _ he hs]; rfl
    · rw [State.ramAccess_enabled a _ _ he hs, State.ramAccess_enabled (s := s.withRom rom) a _ _ he hs]; rfl

/-- LOAD does not look at the ROM image. -/
theorem loadFrom_withRom (rom : RomImage) (s : State) (src : Source) :
    loadFrom (s.withRom rom) src = (loadFrom s src).withRom rom := by
  cases src with
  | unavailable => rfl
  | bytes bs =>
    exact (apply_ite (State.withRom rom) (bs.length = s.ramSize) ((s.setRamBytes bs).returning .loaded)
      (s.returning .ioError)).symm

/-- Every operation but the two ROM reads commutes with a change of the ROM image. -/
theorem exec_withRom {i : Instr} (hi : ∀ a, i ≠ .rdRom0 a ∧ i ≠ .rdRomX a) (rom : RomImage) (s : State) :
    exec i (s.withRom rom) = mapNext (State.withRom rom) (exec i s) := by
  cases i with
  | rdRom0 a => exact absurd rfl (hi a).1
  | rdRomX a => exact absurd rfl (hi a).2
  | rdRam a =>
    exact ramAccess_withRom rom s a (s.returning (.byte openBus)) (fun off => s.returning (.byte (s.ramByte off)))
  | wrRam a d =>
    exact ramAccess_withRom rom s a (s.returning .unit) (fun off => (s.setRamByte off d).returning .unit)
  | load => exact congrArg Host.Outcome.next (loadFrom_withRom rom s _)
  | _ => rfl

/-- Settles O43: no effect touches the ROM image, and every other operation commutes with a change of it. -/
theorem romIsConstantAndReadByRomReadsOnly : Obligations.RomIsConstantAndReadByRomReadsOnly := by
  intro i s
  refine ⟨fun t h => (effect_of_exec_next h).rom_eq, fun hi rom => ⟨fun t h => ?_, fun f h => ?_⟩⟩
  · exact (exec_withRom hi rom s).trans (congrArg _ h)
  · exact (exec_withRom hi rom s).trans (congrArg _ h)

end Sys2Proof.Machine
end

section
/-! PROOF. Bus reads have no side effects (20_memory.md R57). -/

namespace Sys2Proof.Machine

/-- Two states of one block differ in nothing but the model's own fields. -/
theorem State.eq_of_sameBlock {s u : State} (h : s.sameBlock u) :
    u = { s with stream := u.stream, host := u.host, result := u.result } := by
  obtain ⟨hen, hmode, hlow, hsec, hram, hrom⟩ := h
  rw [← hen, ← hmode, ← hlow, ← hsec, ← hram, ← hrom]

/-- A bus read returns in every state of the same block what it returned in one, and only records it. -/
theorem exec_read_of_sameBlock {a : Address} {i : Instr} {s t u : State}
    (hi : i = .rdRom0 a ∨ i = .rdRomX a ∨ i = .rdRam a ∨ i = .rdNone a) (h : exec i s = .next t)
    (hu : s.sameBlock u) : exec i u = .next (u.returning t.result) := by
  rw [State.eq_of_sameBlock hu]
  obtain rfl | rfl | rfl | rfl := hi
  case inr.inr.inl =>
    obtain ⟨hen, rfl⟩ | ⟨hen, hsize, rfl⟩ := exec_rdRam_next h
    · exact exec_rdRam_disabled a hen
    · exact exec_rdRam_enabled a hen hsize
  all_goals
    cases h
    rfl

/-- Settles O41: a read records its result alone, here, in the state it leads to, and in any other state of the block. -/
theorem readsHaveNoSideEffects : Obligations.ReadsHaveNoSideEffects := by
  intro a i hi s t h
  have hread : i = .rdRom0 a ∨ i = .rdRomX a ∨ i = .rdRam a ∨ i = .rdNone a := by simpa using hi
  have hsame {u : State} (hu : s.sameBlock u) := exec_read_of_sameBlock hread h hu
  have hself : s.sameBlock s := ⟨rfl, rfl, rfl, rfl, rfl, rfl⟩
  refine ⟨?_, hsame ((effect_of_exec_next h).sameBlock_of_read hread), fun u hu => hsame hu⟩
  exact Host.Outcome.next.inj (h.symm.trans (hsame hself))

end Sys2Proof.Machine
end

section
/-! SUPPORT. Every 26-bit word is three packed fields, and its kind says how it decodes (30_encoding.md R82, R86). -/

namespace Sys2Proof

/-- A word is its fields, packed: no bit of it lies outside them (30_encoding.md R82). -/
theorem packWord_fields (w : BitVec 26) :
    packWord (w.extractLsb' 24 2) (w.extractLsb' 8 16) (w.extractLsb' 0 8) = w := by
  apply BitVec.eq_of_toNat_eq
  have hw := w.isLt
  rw [packWord_toNat]
  simp only [BitVec.extractLsb'_toNat, Nat.shiftRight_eq_div_pow]
  omega

/-- A word of kind 2 decodes to SAVE, whatever its address and data. -/
theorem decodeWord_save (a : Address) (d : Byte) : decodeWord (packWord 2 a d).toNat = .ok .save := by
  rw [decodeWord, wordKind_packWord]
  rfl

/-- A word of kind 3 decodes to LOAD, whatever its address and data. -/
theorem decodeWord_load (a : Address) (d : Byte) : decodeWord (packWord 3 a d).toNat = .ok .load := by
  rw [decodeWord, wordKind_packWord]
  rfl

/-- Every packed word is an operation: each of the four kinds of R82 has one for every address and data. -/
theorem decodeWord_packWord_ok (k : BitVec 2) (a : Address) (d : Byte) :
    ∃ i, decodeWord (packWord k a d).toNat = .ok i := by
  have hkind : ∀ k : BitVec 2, k = 0 ∨ k = 1 ∨ k = 2 ∨ k = 3 := by decide
  obtain rfl | rfl | rfl | rfl := hkind k
  · exact ⟨_, decodeWord_read a d⟩
  · exact ⟨_, decodeWord_write a d⟩
  · exact ⟨_, decodeWord_save a d⟩
  · exact ⟨_, decodeWord_load a d⟩

end Sys2Proof
end

section
/-! PROOF. Ignored bits are don't-care (30_encoding.md R84, R86). -/

namespace Sys2Proof.Machine

section UsedDataBits

variable {d e : Byte}

/-- WR.RAMEN uses `data[3:0]` only (30_encoding.md R84). -/
theorem enableOf_congr (h : d.toNat % 16 = e.toNat % 16) : enableOf d = enableOf e := by
  rw [enableOf_eq, enableOf_eq, h]

/-- WR.BANK1 uses `data[4:0]` only (30_encoding.md R84). -/
theorem lowBankOf_congr (h : d.toNat % 32 = e.toNat % 32) : lowBankOf d = lowBankOf e :=
  BitVec.eq_of_toNat_eq (by rw [lowBankOf_toNat, lowBankOf_toNat, h])

/-- WR.BANK2 uses `data[1:0]` only (30_encoding.md R84). -/
theorem secondaryBankOf_congr (h : d.toNat % 4 = e.toNat % 4) : secondaryBankOf d = secondaryBankOf e :=
  BitVec.eq_of_toNat_eq (by rw [secondaryBankOf_toNat, secondaryBankOf_toNat, h])

/-- WR.MODE uses `data[0]` only (30_encoding.md R84). -/
theorem modeOf_congr (h : d.toNat % 2 = e.toNat % 2) : modeOf d = modeOf e := by
  rw [modeOf_eq, modeOf_eq, h]

end UsedDataBits

/-- Settles O47: a control write stores a value of the used data bits alone, and each of the four kinds of a word decodes
with any address and data. -/
theorem ignoredBitsChangeNothing : Obligations.IgnoredBitsChangeNothing := by
  refine ⟨fun a b d e s => ⟨fun h => ?_, fun h => ?_, fun h => ?_, fun h => ?_⟩, fun w => ?_⟩
  · rw [exec_wrRamen, exec_wrRamen, enableOf_congr h]
  · rw [exec_wrBank1, exec_wrBank1, lowBankOf_congr h]
  · rw [exec_wrBank2, exec_wrBank2, secondaryBankOf_congr h]
  · rw [exec_wrMode, exec_wrMode, modeOf_congr h]
  · rw [← packWord_fields w]
    exact decodeWord_packWord_ok _ _ _

end Sys2Proof.Machine
end

section
/-! SUPPORT. The offsets of the two ROM regions as arithmetic (40_address_decoder.md R116, R117). -/

namespace Sys2Proof.Machine

/-- A mask below `2 ^ k` cuts a field at bit `k` and above away. -/
theorem mul_two_pow_add_and {k m : Nat} (hm : m < 2 ^ k) (hi x : Nat) : (hi * 2 ^ k + x) &&& m = x &&& m := by
  have hmod (y : Nat) : y &&& m = y % 2 ^ k &&& m := by
    have h : (y &&& m) % 2 ^ k = y &&& m := Nat.mod_eq_of_lt (Nat.and_le_right.trans_lt hm)
    rw [← h, Nat.and_mod_two_pow, Nat.mod_eq_of_lt hm]
  rw [hmod, Nat.mul_add_mod_self_right, ← hmod]

variable (s : State) (a : Address)

/-- The low field is 0 in the low region, whatever the low bank latch (40_address_decoder.md R116). -/
theorem State.lowRegionOffset_eq :
    s.lowRegionOffset a = (s.msb2 * 0x80000 + a.toNat % 0x4000) &&& s.romMask := by
  rw [State.lowRegionOffset, State.romOffset_eq s s.msb2 (by decide : 0 < 32), Nat.zero_mul, Nat.add_zero]

/-- The low region is bank 0 in `MODE_0`, and in both modes when the ROM has no more than 0x80000 bytes
(40_address_decoder.md R116). -/
theorem State.lowRegionOffset_eq_of_bank_zero (h : s.mode = .mode0 ∨ s.romSize ≤ 0x80000) :
    s.lowRegionOffset a = a.toNat % 0x4000 &&& s.romMask := by
  rw [State.lowRegionOffset_eq]
  obtain hmode | hsize := h
  · rw [State.msb2_mode0 hmode, Nat.zero_mul, Nat.zero_add]
  · have hmask : s.romMask < 2 ^ 19 := hsize
    exact mul_two_pow_add_and hmask s.msb2 _

/-- The switchable region takes both bank latches and no mode (40_address_decoder.md R117). -/
theorem State.switchableRegionOffset_eq :
    s.switchableRegionOffset a =
      ((s.secondaryBankBits.toNat * 32 + s.lowBankBits.toNat) * 0x4000 + a.toNat % 0x4000) &&& s.romMask := by
  rw [State.switchableRegionOffset, State.romOffset_eq s _ s.lowBankBits.isLt, Nat.add_mul, Nat.mul_assoc]

end Sys2Proof.Machine
end

section
/-! PROOF. The two ROM reads (40_address_decoder.md R116, R117). -/

namespace Sys2Proof.Machine

/-- Settles O19: the byte at the offset of the low region, and that offset where the region is bank 0. -/
theorem rdRom0ReadsTheLowRegion : Obligations.RdRom0ReadsTheLowRegion := by
  refine fun a s => ⟨?_, fun hbank => ?_⟩
  · rw [exec_rdRom0, State.lowRegionOffset_eq, State.msb2_eq]
    rfl
  · rw [exec_rdRom0, State.lowRegionOffset_eq_of_bank_zero s a hbank]
    rfl

/-- Settles O20: the byte at the offset of the switchable region; the low bank latch is the unmasked bank modulo 32. -/
theorem rdRomXReadsTheSwitchableRegion : Obligations.RdRomXReadsTheSwitchableRegion := by
  refine fun a s => ⟨?_, fun hlow => ?_⟩
  · rw [exec_rdRomX, State.switchableRegionOffset_eq]
    rfl
  · obtain ⟨hpos, hle⟩ := toNat_legal_of_ne_zero hlow
    omega

end Sys2Proof.Machine
end

section
/-! SUPPORT. The operation a bus access selects, by the address ranges of the windows (20_memory.md R51, 30_encoding.md
R85). -/

namespace Sys2Proof

section Read

variable {a : Address}

theorem decodeRead_eq_ite (a : Address) : decodeRead a =
    if a.toNat ≤ 0x3FFF then .rdRom0 a
    else if 0x4000 ≤ a.toNat ∧ a.toNat ≤ 0x7FFF then .rdRomX a
    else if 0xA000 ≤ a.toNat ∧ a.toNat ≤ 0xBFFF then .rdRam a
    else .rdNone a := by
  refine if_congr ?_ rfl (if_congr ?_ rfl (if_congr ?_ rfl rfl)) <;> simp [window_eq_iff] <;> omega

theorem decodeRead_eq_rdRom0 (h : a.toNat ≤ 0x3FFF) : decodeRead a = .rdRom0 a := by
  rw [decodeRead_eq_ite, if_pos h]

theorem decodeRead_eq_rdRomX (h : 0x4000 ≤ a.toNat ∧ a.toNat ≤ 0x7FFF) : decodeRead a = .rdRomX a := by
  rw [decodeRead_eq_ite, if_neg (by omega), if_pos h]

theorem decodeRead_eq_rdRam (h : 0xA000 ≤ a.toNat ∧ a.toNat ≤ 0xBFFF) : decodeRead a = .rdRam a := by
  rw [decodeRead_eq_ite, if_neg (by omega), if_neg (by omega), if_pos h]

theorem decodeRead_eq_rdNone (h : (0x8000 ≤ a.toNat ∧ a.toNat ≤ 0x9FFF) ∨ 0xC000 ≤ a.toNat) :
    decodeRead a = .rdNone a := by
  rw [decodeRead_eq_ite, if_neg (by omega), if_neg (by omega), if_neg (by omega)]

end Read

section Write

variable {a : Address} (d : Byte)

theorem decodeWrite_eq_ite (a : Address) : decodeWrite a d =
    if a.toNat ≤ 0x1FFF then .wrRamen a d
    else if 0x2000 ≤ a.toNat ∧ a.toNat ≤ 0x3FFF then .wrBank1 a d
    else if 0x4000 ≤ a.toNat ∧ a.toNat ≤ 0x5FFF then .wrBank2 a d
    else if 0x6000 ≤ a.toNat ∧ a.toNat ≤ 0x7FFF then .wrMode a d
    else if 0xA000 ≤ a.toNat ∧ a.toNat ≤ 0xBFFF then .wrRam a d
    else .wrNone a d := by
  refine if_congr ?_ rfl (if_congr ?_ rfl (if_congr ?_ rfl (if_congr ?_ rfl (if_congr ?_ rfl rfl)))) <;>
    simp [window_eq_iff] <;> omega

theorem decodeWrite_eq_wrRamen (h : a.toNat ≤ 0x1FFF) : decodeWrite a d = .wrRamen a d := by
  rw [decodeWrite_eq_ite, if_pos h]

theorem decodeWrite_eq_wrBank1 (h : 0x2000 ≤ a.toNat ∧ a.toNat ≤ 0x3FFF) : decodeWrite a d = .wrBank1 a d := by
  rw [decodeWrite_eq_ite, if_neg (by omega), if_pos h]

theorem decodeWrite_eq_wrBank2 (h : 0x4000 ≤ a.toNat ∧ a.toNat ≤ 0x5FFF) : decodeWrite a d = .wrBank2 a d := by
  rw [decodeWrite_eq_ite, if_neg (by omega), if_neg (by omega), if_pos h]

theorem decodeWrite_eq_wrMode (h : 0x6000 ≤ a.toNat ∧ a.toNat ≤ 0x7FFF) : decodeWrite a d = .wrMode a d := by
  rw [decodeWrite_eq_ite, if_neg (by omega), if_neg (by omega), if_neg (by omega), if_pos h]

theorem decodeWrite_eq_wrRam (h : 0xA000 ≤ a.toNat ∧ a.toNat ≤ 0xBFFF) : decodeWrite a d = .wrRam a d := by
  rw [decodeWrite_eq_ite, if_neg (by omega), if_neg (by omega), if_neg (by omega), if_neg (by omega), if_pos h]

theorem decodeWrite_eq_wrNone (h : (0x8000 ≤ a.toNat ∧ a.toNat ≤ 0x9FFF) ∨ 0xC000 ≤ a.toNat) :
    decodeWrite a d = .wrNone a d := by
  rw [decodeWrite_eq_ite, if_neg (by omega), if_neg (by omega), if_neg (by omega), if_neg (by omega),
    if_neg (by omega)]

end Write

end Sys2Proof
end

section
/-! PROOF. The dispatch of the step (41_register_state_machine.md R150). -/

namespace Sys2Proof.Machine

theorem Effect.stream_eq {i : Instr} {s t : State} (h : Effect s i t) : t.stream = s.stream := by
  cases h <;> rfl

section Step

variable (s : State) (a : Address) (d : Byte) (x y : Nat) (h : HostSide) (rest : List Request)

/-- The step performs the operation its head request names, on the state it starts from. -/
theorem step_cons {r : Request} {i : Instr} (hf : fetch r = .ok i) :
    step { s with stream := r :: rest } = exec i { s with stream := rest, host := r.host } :=
  step_of_fetch (s := { s with stream := r :: rest }) rfl hf

/-- The data field of a read is ignored (30_encoding.md R82). -/
theorem step_read : step { s with stream := ⟨0, a.toNat, x, h⟩ :: rest } =
    exec (decodeRead a) { s with stream := rest, host := h } :=
  step_cons (r := ⟨0, a.toNat, x, h⟩) s rest (fetch_read a)

theorem step_write : step { s with stream := ⟨1, a.toNat, d.toNat, h⟩ :: rest } =
    exec (decodeWrite a d) { s with stream := rest, host := h } :=
  step_cons (r := ⟨1, a.toNat, d.toNat, h⟩) s rest (fetch_write a d)

/-- The address and the data field of a SAVE are ignored (30_encoding.md R82). -/
theorem step_save : step { s with stream := ⟨2, x, y, h⟩ :: rest } =
    exec .save { s with stream := rest, host := h } :=
  step_cons (r := ⟨2, x, y, h⟩) s rest rfl

/-- The address and the data field of a LOAD are ignored (30_encoding.md R82). -/
theorem step_load : step { s with stream := ⟨3, x, y, h⟩ :: rest } =
    exec .load { s with stream := rest, host := h } :=
  step_cons (r := ⟨3, x, y, h⟩) s rest rfl

end Step

/-- Settles O9: the step performs what the decoder selects, and the decoder selects by the ranges of the windows. -/
theorem stepDispatchesByWindow : Obligations.StepDispatchesByWindow := by
  refine ⟨fun i s t h => (effect_of_exec_next h).stream_eq, fun s a d h rest x y => ?_⟩
  intro u rd wr
  have hread : step rd = exec (decodeRead a) u := step_read s a x h rest
  have hwrite : step wr = exec (decodeWrite a d) u := step_write s a d h rest
  exact ⟨fun ha => decodeRead_eq_rdRom0 ha ▸ hread,
    fun ha => decodeRead_eq_rdRomX ha ▸ hread,
    fun ha => decodeRead_eq_rdRam ha ▸ hread,
    fun ha => decodeRead_eq_rdNone ha ▸ hread,
    fun ha => decodeWrite_eq_wrRamen d ha ▸ hwrite,
    fun ha => decodeWrite_eq_wrBank1 d ha ▸ hwrite,
    fun ha => decodeWrite_eq_wrBank2 d ha ▸ hwrite,
    fun ha => decodeWrite_eq_wrMode d ha ▸ hwrite,
    fun ha => decodeWrite_eq_wrRam d ha ▸ hwrite,
    fun ha => decodeWrite_eq_wrNone d ha ▸ hwrite,
    step_save s x y h rest,
    step_load s x y h rest⟩

end Sys2Proof.Machine
end

section
/-! PROOF. The control writes and the write with no function (41_register_state_machine.md R140 to R145). -/

namespace Sys2Proof.Machine

theorem lowBankOf_eq (d : Byte) : lowBankOf d = BitVec.ofNat 5 (max 1 (d.toNat % 32)) := by
  rw [← lowBankOf_toNat, BitVec.ofNat_toNat, BitVec.setWidth_eq]

theorem secondaryBankOf_eq (d : Byte) : secondaryBankOf d = BitVec.ofNat 2 (d.toNat % 4) := by
  rw [← secondaryBankOf_toNat, BitVec.ofNat_toNat, BitVec.setWidth_eq]

/-- Settles O24: the stored value is the comparison of the low nibble. -/
theorem wrRamenComparesTheNibble : Obligations.WrRamenComparesTheNibble := by
  intro a d s
  rw [exec_wrRamen, enableOf_eq]
  rfl

/-- Settles O25: the stored value is the clamp of the low five bits. -/
theorem wrBank1ClampsTheLowBank : Obligations.WrBank1ClampsTheLowBank := by
  intro a d s
  rw [exec_wrBank1, lowBankOf_eq]
  rfl

/-- Settles O26: the stored value is the low two bits. -/
theorem wrBank2StoresTwoBits : Obligations.WrBank2StoresTwoBits := by
  intro a d s
  rw [exec_wrBank2, secondaryBankOf_eq]
  rfl

/-- Settles O27: the stored value is the mode that the low bit names. -/
theorem wrModeTakesBitZero : Obligations.WrModeTakesBitZero := by
  intro a d s
  rw [exec_wrMode, modeOf_eq]
  rfl

/-- Settles O28: WR.NONE records its result alone. -/
theorem wrNoneChangesNothing : Obligations.WrNoneChangesNothing :=
  exec_wrNone

/-- Settles O46: the four values are functions of the data byte, and each window selects the write of its own latch. -/
theorem controlWritesWriteOneLatch : Obligations.ControlWritesWriteOneLatch := by
  constructor
  · intro d
    refine ⟨enableOf d, lowBankOf d, secondaryBankOf d, modeOf d, fun a s => ⟨fun ha => ?_, fun ha => ?_,
      fun ha => ?_, fun ha => ?_⟩⟩
    · exact decodeWrite_eq_wrRamen d ha ▸ exec_wrRamen a d s
    · exact decodeWrite_eq_wrBank1 d ha ▸ exec_wrBank1 a d s
    · exact decodeWrite_eq_wrBank2 d ha ▸ exec_wrBank2 a d s
    · exact decodeWrite_eq_wrMode d ha ▸ exec_wrMode a d s
  · intro a ha
    rcases Nat.lt_or_ge a.toNat 0x4000 with hlow | hhigh
    · exact .inl (decodeRead_eq_rdRom0 (Nat.le_of_lt_succ hlow))
    · exact .inr (decodeRead_eq_rdRomX ⟨hhigh, ha⟩)

end Sys2Proof.Machine
end

section
/-! PROOF. What a successful SAVE returns and a successful LOAD stores (42_persistence.md R161, R163). -/

namespace Sys2Proof.Machine

variable {s : State} {bs : List Byte} {x : Nat}

@[simp] theorem State.length_ramBytes (s : State) : s.ramBytes.length = s.ramSize :=
  Memory.length_toBytes s.ramSize s.ram.cells

/-- Byte `x` of the image written out is the byte at offset `x`. -/
theorem State.getElem?_ramBytes (hx : x < s.ramSize) : s.ramBytes[x]? = some (s.ramByte x) := by
  simp [State.ramBytes, State.ramByte, Memory.toBytes, hx]

/-- The byte at offset `x` of an overwritten image is byte `x` of the sequence. -/
theorem State.getElem?_eq_ramByte_setRamBytes (s : State) (hx : x < bs.length) :
    bs[x]? = some ((s.setRamBytes bs).ramByte x) := by
  rw [State.ramByte_setRamBytes, List.getD_eq_getElem _ _ hx, List.getElem?_eq_getElem hx]

theorem exec_save_of_accepts (h : s.host.sink = .accepts) :
    exec .save s = .next (s.returning (.saved s.ramBytes)) := by
  rw [exec_save, saveResult, h]

theorem exec_load_of_length_eq (hsource : s.host.source = .bytes bs) (hlength : bs.length = s.ramSize) :
    exec .load s = .next ((s.setRamBytes bs).returning .loaded) := by
  rw [exec_load, hsource, loadFrom, if_pos hlength]

/-- Settles O29: the bytes returned are the image written out, and only the result is recorded. -/
theorem saveEmitsTheImage : Obligations.SaveEmitsTheImage := by
  intro s hsink
  exact ⟨s.ramBytes, exec_save_of_accepts hsink, s.length_ramBytes, fun x hx => State.getElem?_ramBytes hx⟩

/-- Settles O31: the sequence covers the image, and the update names no other field. -/
theorem loadReplacesTheImage : Obligations.LoadReplacesTheImage := by
  intro s bs hsource hlength
  refine ⟨_, exec_load_of_length_eq hsource hlength, fun x hx => ?_, rfl, rfl⟩
  exact s.getElem?_eq_ramByte_setRamBytes (hlength ▸ hx)

end Sys2Proof.Machine
end

section
/-! PROOF. SAVE and LOAD do not look at the latches (42_persistence.md R166). -/

namespace Sys2Proof.Machine

/-- The state with other values in the four latches. -/
def State.withLatches (en : Bool) (m : Mode) (lo : BitVec 5) (sec : BitVec 2) (s : State) : State :=
  { s with ramEnabled := en, mode := m, lowBankBits := lo, secondaryBankBits := sec }

section

variable (en : Bool) (m : Mode) (lo : BitVec 5) (sec : BitVec 2) (s : State)

theorem loadFrom_withLatches (src : Source) :
    loadFrom (s.withLatches en m lo sec) src = (loadFrom s src).withLatches en m lo sec := by
  cases src with
  | unavailable => rfl
  | bytes bs =>
    exact (apply_ite (State.withLatches en m lo sec) (bs.length = s.ramSize) ((s.setRamBytes bs).returning .loaded)
      (s.returning .ioError)).symm

/-- SAVE and LOAD answer a next state, and commute with a change of the latches. -/
theorem exec_persistence_withLatches {i : Instr} (hi : i = .save ∨ i = .load) :
    ∃ t, exec i s = .next t ∧ exec i (s.withLatches en m lo sec) = .next (t.withLatches en m lo sec) := by
  obtain rfl | rfl := hi
  · exact ⟨_, exec_save s, exec_save _⟩
  · exact ⟨_, exec_load s, congrArg Host.Outcome.next (loadFrom_withLatches en m lo sec s s.host.source)⟩

end

/-- Settles O33: neither operation writes a latch, and both commute with a change of the latches. -/
theorem saveAndLoadIgnoreTheLatches : Obligations.SaveAndLoadIgnoreTheLatches := by
  intro s en m lo sec i hi
  have hpersistence : i = .save ∨ i = .load := by simpa using hi
  obtain ⟨t, ht, hother⟩ := exec_persistence_withLatches en m lo sec s hpersistence
  obtain ⟨hen, hmode, hlow, hsec, -, -⟩ := (effect_of_exec_next ht).sameBlock_but_ram_of_persistence hpersistence
  exact ⟨t, ht, hen, hmode, hlow, hsec, hother⟩

end Sys2Proof.Machine
end

section
/-! PROOF. What construction sets, and that no step changes the parameters (70_reset_and_hazards.md R211). -/

namespace Sys2Proof.Machine

/-- Byte `x` of a sequence is the byte at offset `x` of its image. -/
theorem Memory.getElem?_eq_read_ofBytes {bs : List Byte} {x : Nat} (hx : x < bs.length) :
    bs[x]? = some ((Memory.ofBytes bs).read x) := by
  rw [Memory.read_ofBytes, List.getD_eq_getElem _ _ hx, List.getElem?_eq_getElem hx]

section Fresh

variable (b : Byte) (bs init : List Byte)

@[simp] theorem State.fresh_romSize : (State.fresh b bs init).romSize = (b :: bs).length := rfl
@[simp] theorem State.fresh_ramSize : (State.fresh b bs init).ramSize = init.length := rfl
@[simp] theorem State.fresh_romMask : (State.fresh b bs init).romMask = (b :: bs).length - 1 := rfl
@[simp] theorem State.fresh_ramMask : (State.fresh b bs init).ramMask = init.length - 1 := rfl

/-- The ROM bytes of a new controller are those of the image (10_state.md R26). -/
theorem State.getElem?_eq_romByte_fresh {x : Nat} (hx : x < (b :: bs).length) :
    (b :: bs)[x]? = some ((State.fresh b bs init).romByte x) :=
  Memory.getElem?_eq_read_ofBytes hx

/-- The RAM bytes of a new controller are those of `RAM_INIT` (10_state.md R25). -/
theorem State.getElem?_eq_ramByte_fresh {x : Nat} (hx : x < init.length) :
    init[x]? = some ((State.fresh b bs init).ramByte x) :=
  Memory.getElem?_eq_read_ofBytes hx

end Fresh

/-- No operation changes `RAM_SIZE`: WR.RAM and LOAD replace bytes of the image and keep its size. -/
theorem Effect.ramSize_eq {i : Instr} {s t : State} (h : Effect s i t) : t.ramSize = s.ramSize := by
  cases h <;> rfl

/-- No step changes the ROM image or `RAM_SIZE`. -/
theorem step_keeps_parameters {s t : State} (h : step s = .next t) : t.rom = s.rom ∧ t.ramSize = s.ramSize := by
  obtain ⟨r, rest, i, -, -, hexec⟩ := step_next h
  have heffect : Effect (s.take r rest) i t := effect_of_exec_next hexec
  exact ⟨heffect.rom_eq, heffect.ramSize_eq⟩

/-- Settles O12: a non-empty ROM image gives the new controller over it, and every effect keeps the parameters. -/
theorem constructionSetsTheState : Obligations.ConstructionSetsTheState := by
  refine ⟨fun rom init hrom => ?_, fun s t => step_keeps_parameters⟩
  obtain ⟨b, bs, rfl⟩ := List.exists_cons_of_ne_nil hrom
  exact ⟨State.fresh b bs init, rfl, State.fresh_romSize b bs init, State.fresh_ramSize b bs init,
    State.fresh_romMask b bs init, fun _ => State.fresh_ramMask b bs init, rfl, rfl, rfl, rfl,
    fun _ => State.getElem?_eq_romByte_fresh b bs init, fun _ => State.getElem?_eq_ramByte_fresh b bs init⟩

end Sys2Proof.Machine
end

section
/-! SUPPORT. Well-formedness by address ranges, the decoder on and from its fields, and what a word's ignored fields and
selecting bits decide (30_encoding.md R82, R83, R85). -/

namespace Sys2Proof

section Ranges

variable {a : Address}

@[simp] theorem Address.within_iff {lo hi : Nat} : Address.within lo hi a = true ↔ lo ≤ a.toNat ∧ a.toNat ≤ hi := by
  simp [Address.within]

@[simp] theorem Address.noFunction_iff :
    Address.noFunction a = true ↔ (0x8000 ≤ a.toNat ∧ a.toNat ≤ 0x9FFF) ∨ 0xC000 ≤ a.toNat := by
  have h := a.isLt
  simp only [Address.noFunction, Bool.or_eq_true, Address.within_iff]
  omega

/-- The regions a bus read distinguishes cover all addresses (20_memory.md R51). -/
theorem Address.readRegion_cases (a : Address) : a.toNat ≤ 0x3FFF ∨ (0x4000 ≤ a.toNat ∧ a.toNat ≤ 0x7FFF) ∨
    (0xA000 ≤ a.toNat ∧ a.toNat ≤ 0xBFFF) ∨ (0x8000 ≤ a.toNat ∧ a.toNat ≤ 0x9FFF) ∨ 0xC000 ≤ a.toNat := by
  omega

/-- The windows a bus write distinguishes cover all addresses (20_memory.md R51). -/
theorem Address.writeRegion_cases (a : Address) : a.toNat ≤ 0x1FFF ∨ (0x2000 ≤ a.toNat ∧ a.toNat ≤ 0x3FFF) ∨
    (0x4000 ≤ a.toNat ∧ a.toNat ≤ 0x5FFF) ∨ (0x6000 ≤ a.toNat ∧ a.toNat ≤ 0x7FFF) ∨
    (0xA000 ≤ a.toNat ∧ a.toNat ≤ 0xBFFF) ∨ (0x8000 ≤ a.toNat ∧ a.toNat ≤ 0x9FFF) ∨ 0xC000 ≤ a.toNat := by
  omega

end Ranges

theorem decodeRead_wellFormed (a : Address) : (decodeRead a).wellFormed = true := by
  rcases Address.readRegion_cases a with h | h | h | h
  · rw [decodeRead_eq_rdRom0 h]
    exact Address.within_iff.mpr ⟨Nat.zero_le _, h⟩
  · rw [decodeRead_eq_rdRomX h]
    exact Address.within_iff.mpr h
  · rw [decodeRead_eq_rdRam h]
    exact Address.within_iff.mpr h
  · rw [decodeRead_eq_rdNone h]
    exact Address.noFunction_iff.mpr h

theorem decodeWrite_wellFormed (a : Address) (d : Byte) : (decodeWrite a d).wellFormed = true := by
  rcases Address.writeRegion_cases a with h | h | h | h | h | h
  · rw [decodeWrite_eq_wrRamen d h]
    exact Address.within_iff.mpr ⟨Nat.zero_le _, h⟩
  · rw [decodeWrite_eq_wrBank1 d h]
    exact Address.within_iff.mpr h
  · rw [decodeWrite_eq_wrBank2 d h]
    exact Address.within_iff.mpr h
  · rw [decodeWrite_eq_wrMode d h]
    exact Address.within_iff.mpr h
  · rw [decodeWrite_eq_wrRam d h]
    exact Address.within_iff.mpr h
  · rw [decodeWrite_eq_wrNone d h]
    exact Address.noFunction_iff.mpr h

/-- The canonical word of a read has its data field zero, whichever read it is (30_encoding.md R82). -/
theorem encode_decodeRead (a : Address) : encode (decodeRead a) = packWord 0 a 0 := by
  simp only [decodeRead]
  split_ifs <;> rfl

/-- The canonical word of a write is the word itself, whichever write it is (30_encoding.md R82). -/
theorem encode_decodeWrite (a : Address) (d : Byte) : encode (decodeWrite a d) = packWord 1 a d := by
  simp only [decodeWrite]
  split_ifs <;> rfl

/-- Decoding the canonical word of a read gives the read the decoder selects for its address. -/
theorem decodeWord_encode_of_decodeRead_eq {a : Address} {i : Instr} (h : decodeRead a = i) :
    decodeWord (encode i).toNat = .ok i := by
  rw [← h, encode_decodeRead, decodeWord_read]

/-- Decoding the canonical word of a write gives the write the decoder selects for its address and data. -/
theorem decodeWord_encode_of_decodeWrite_eq {a : Address} {d : Byte} {i : Instr} (h : decodeWrite a d = i) :
    decodeWord (encode i).toNat = .ok i := by
  rw [← h, encode_decodeWrite, decodeWord_write]

/-- Everything the fields of a request can decode to (30_encoding.md R85). -/
theorem decodeFields_ok {kind address data : Nat} {i : Instr} (h : decodeFields kind address data = .ok i) :
    (∃ a, i = decodeRead a) ∨ (∃ a d, i = decodeWrite a d) ∨ i = .save ∨ i = .load := by
  unfold decodeFields at h
  split at h
  · split at h
    · cases h
      exact .inl ⟨_, rfl⟩
    · cases h
  · split at h
    · cases h
      exact .inr (.inl ⟨_, _, rfl⟩)
    · cases h
  · cases h
    exact .inr (.inr (.inl rfl))
  · cases h
    exact .inr (.inr (.inr rfl))
  · cases h

/-- A kind above 3 is no kind of a word (30_encoding.md R82). -/
theorem decodeFields_of_kind_ge {kind : Nat} (h : 4 ≤ kind) (address data : Nat) :
    decodeFields kind address data = .error .notAnOperation := by
  obtain ⟨k, rfl⟩ := Nat.exists_eq_add_of_le' h
  rfl

/-- A word's fields are masked one by one. -/
theorem packWord_and (k k' : BitVec 2) (a a' : Address) (d d' : Byte) :
    packWord k a d &&& packWord k' a' d' = packWord (k &&& k') (a &&& a') (d &&& d') := by
  rw [packWord, packWord, BitVec.and_append, BitVec.and_append]
  rfl

/-- The mask of a read keeps all but the data (30_encoding.md R82). -/
theorem packWord_and_readMask (k : BitVec 2) (a : Address) (d : Byte) :
    packWord k a d &&& 0x3FFFF00 = packWord k a 0 := by
  rw [show (0x3FFFF00 : BitVec 26) = packWord (BitVec.allOnes 2) (BitVec.allOnes 16) 0 by decide, packWord_and,
    BitVec.and_allOnes, BitVec.and_allOnes]
  exact congrArg _ BitVec.and_zero

/-- The mask of SAVE and LOAD keeps the kind alone (30_encoding.md R82). -/
theorem packWord_and_kindMask (k : BitVec 2) (a : Address) (d : Byte) :
    packWord k a d &&& 0x3000000 = packWord k 0 0 := by
  rw [show (0x3000000 : BitVec 26) = packWord (BitVec.allOnes 2) 0 0 by decide, packWord_and, BitVec.and_allOnes]
  exact congrArg₂ _ BitVec.and_zero BitVec.and_zero

/-- The kind of a word says where the word lies among the numbers. -/
theorem packWord_toNat_lt_iff (k : BitVec 2) (a : Address) (d : Byte) :
    ((packWord k a d).toNat < 2 ^ 24 ↔ k.toNat < 1) ∧ ((packWord k a d).toNat < 2 ^ 25 ↔ k.toNat < 2) := by
  have ha := a.isLt
  have hd := d.isLt
  rw [packWord_toNat]
  omega

/-- A word is one of the four kinds, with an address and a data byte (30_encoding.md R82). -/
theorem word_cases {P : BitVec 26 → Prop} (hread : ∀ a d, P (packWord 0 a d)) (hwrite : ∀ a d, P (packWord 1 a d))
    (hsave : ∀ a d, P (packWord 2 a d)) (hload : ∀ a d, P (packWord 3 a d)) (w : BitVec 26) : P w := by
  have hkind : ∀ k : BitVec 2, k = 0 ∨ k = 1 ∨ k = 2 ∨ k = 3 := by decide
  rw [← packWord_fields w]
  obtain hk | hk | hk | hk := hkind (w.extractLsb' 24 2) <;> rw [hk]
  · exact hread _ _
  · exact hwrite _ _
  · exact hsave _ _
  · exact hload _ _

/-- The mnemonic of a read depends on the window of its address alone (30_encoding.md R85). -/
theorem decodeRead_mnemonic_congr {a b : Address} (h : window a = window b) :
    (decodeRead a).mnemonic = (decodeRead b).mnemonic := by
  simp only [decodeRead, h]
  split_ifs <;> rfl

/-- The mnemonic of a write depends on the window of its address alone (30_encoding.md R85). -/
theorem decodeWrite_mnemonic_congr {a b : Address} (h : window a = window b) (d e : Byte) :
    (decodeWrite a d).mnemonic = (decodeWrite b e).mnemonic := by
  simp only [decodeWrite, h]
  split_ifs <;> rfl

/-- The mnemonics of the rows that select a word, in the order of the table. -/
def selectingMnemonics (w : BitVec 26) : List String :=
  (opcodeRows.filter (rowSelects w)).map (fun r => r.mnemonic)

/-- The first address of a window. -/
def windowBase (w : BitVec 3) : Address :=
  w ++ (0 : BitVec 13)

theorem window_windowBase : ∀ w : BitVec 3, window (windowBase w) = w := by
  decide

/-- Every row of the table tests the five selecting bits alone (30_encoding.md R83). -/
theorem opcodeRows_test_selecting_bits : ∀ r ∈ opcodeRows, ∃ (n : String) (m v : BitVec 5),
    r = ⟨n, m ++ (0 : BitVec 21), v ++ (0 : BitVec 21)⟩ := by
  have hbits : ∀ r ∈ opcodeRows, r = ⟨r.mnemonic, r.mask.extractLsb' 21 5 ++ (0 : BitVec 21),
      r.value.extractLsb' 21 5 ++ (0 : BitVec 21)⟩ := by
    decide
  exact fun r hr => ⟨_, _, _, hbits r hr⟩

/-- The rows that select a word are those that select the first word of its kind and window. -/
theorem selectingMnemonics_packWord (k : BitVec 2) (a : Address) (d : Byte) :
    selectingMnemonics (packWord k a d) = selectingMnemonics (packWord k (windowBase (window a)) 0) := by
  refine congrArg (List.map _) (List.filter_congr fun r hr => ?_)
  obtain ⟨n, m, v, rfl⟩ := opcodeRows_test_selecting_bits r hr
  rw [rowSelects_packWord, rowSelects_packWord, window_windowBase]

/-- One row selects a read word, that of its read. -/
theorem selectingMnemonics_read (a : Address) (d : Byte) :
    selectingMnemonics (packWord 0 a d) = [(decodeRead a).mnemonic] := by
  have htable : ∀ w : BitVec 3,
      selectingMnemonics (packWord 0 (windowBase w) 0) = [(decodeRead (windowBase w)).mnemonic] := by
    decide
  rw [selectingMnemonics_packWord, htable, decodeRead_mnemonic_congr (window_windowBase (window a))]

/-- One row selects a write word, that of its write. -/
theorem selectingMnemonics_write (a : Address) (d : Byte) :
    selectingMnemonics (packWord 1 a d) = [(decodeWrite a d).mnemonic] := by
  have htable : ∀ w : BitVec 3,
      selectingMnemonics (packWord 1 (windowBase w) 0) = [(decodeWrite (windowBase w) 0).mnemonic] := by
    decide
  rw [selectingMnemonics_packWord, htable, decodeWrite_mnemonic_congr (window_windowBase (window a)) 0 d]

/-- One row selects a word of kind 2 and one a word of kind 3, whatever the window. -/
theorem selectingMnemonics_persistence (a : Address) (d : Byte) :
    selectingMnemonics (packWord 2 a d) = ["SAVE"] ∧ selectingMnemonics (packWord 3 a d) = ["LOAD"] := by
  have htable : ∀ w : BitVec 3, selectingMnemonics (packWord 2 (windowBase w) 0) = ["SAVE"] ∧
      selectingMnemonics (packWord 3 (windowBase w) 0) = ["LOAD"] := by
    decide
  rw [selectingMnemonics_packWord, selectingMnemonics_packWord 3]
  exact htable (window a)

end Sys2Proof
end

section
/-! PROOF. Words, operations and the opcode table (30_encoding.md sections 2 to 4). -/

namespace Sys2Proof

/-- Settles O2: an operation is well formed in just the windows in which the decoder selects it. -/
theorem decodeOfEncode : Obligations.DecodeOfEncode := by
  intro i h
  cases i with
  | rdRom0 a => exact decodeWord_encode_of_decodeRead_eq (decodeRead_eq_rdRom0 (Address.within_iff.mp h).2)
  | rdRomX a => exact decodeWord_encode_of_decodeRead_eq (decodeRead_eq_rdRomX (Address.within_iff.mp h))
  | rdNone a => exact decodeWord_encode_of_decodeRead_eq (decodeRead_eq_rdNone (Address.noFunction_iff.mp h))
  | rdRam a => exact decodeWord_encode_of_decodeRead_eq (decodeRead_eq_rdRam (Address.within_iff.mp h))
  | wrRamen a d => exact decodeWord_encode_of_decodeWrite_eq (decodeWrite_eq_wrRamen d (Address.within_iff.mp h).2)
  | wrBank1 a d => exact decodeWord_encode_of_decodeWrite_eq (decodeWrite_eq_wrBank1 d (Address.within_iff.mp h))
  | wrBank2 a d => exact decodeWord_encode_of_decodeWrite_eq (decodeWrite_eq_wrBank2 d (Address.within_iff.mp h))
  | wrMode a d => exact decodeWord_encode_of_decodeWrite_eq (decodeWrite_eq_wrMode d (Address.within_iff.mp h))
  | wrNone a d => exact decodeWord_encode_of_decodeWrite_eq (decodeWrite_eq_wrNone d (Address.noFunction_iff.mp h))
  | wrRam a d => exact decodeWord_encode_of_decodeWrite_eq (decodeWrite_eq_wrRam d (Address.within_iff.mp h))
  | save => exact decodeWord_save 0 0
  | load => exact decodeWord_load 0 0

/-- Settles O3: kind by kind, the encoding of the decoded operation packs the fields the operation looks at. -/
theorem encodeOfDecodeIsCanonical : Obligations.EncodeOfDecodeIsCanonical := by
  refine word_cases (fun a d => ?_) (fun a d => ?_) (fun a d => ?_) (fun a d => ?_)
  · refine ⟨_, decodeWord_read a d, decodeRead_wellFormed a, ?_⟩
    rw [if_pos ((packWord_toNat_lt_iff 0 a d).1.mpr (by decide)), packWord_and_readMask, encode_decodeRead]
  · refine ⟨_, decodeWord_write a d, decodeWrite_wellFormed a d, ?_⟩
    rw [if_neg ((packWord_toNat_lt_iff 1 a d).1.not.mpr (by decide)),
      if_pos ((packWord_toNat_lt_iff 1 a d).2.mpr (by decide)), encode_decodeWrite]
  · refine ⟨_, decodeWord_save a d, rfl, ?_⟩
    rw [if_neg ((packWord_toNat_lt_iff 2 a d).1.not.mpr (by decide)),
      if_neg ((packWord_toNat_lt_iff 2 a d).2.not.mpr (by decide)), packWord_and_kindMask, encode]
  · refine ⟨_, decodeWord_load a d, rfl, ?_⟩
    rw [if_neg ((packWord_toNat_lt_iff 3 a d).1.not.mpr (by decide)),
      if_neg ((packWord_toNat_lt_iff 3 a d).2.not.mpr (by decide)), packWord_and_kindMask, encode]

/-- Settles O4: rows and decoder look at the same five bits, and agree on the first word of each kind and window. -/
theorem eachWordHasOneRow : Obligations.EachWordHasOneRow :=
  word_cases (fun a d => ⟨_, decodeWord_read a d, selectingMnemonics_read a d⟩)
    (fun a d => ⟨_, decodeWord_write a d, selectingMnemonics_write a d⟩)
    (fun a d => ⟨_, decodeWord_save a d, (selectingMnemonics_persistence a d).1⟩)
    (fun a d => ⟨_, decodeWord_load a d, (selectingMnemonics_persistence a d).2⟩)

/-- Settles O5: what a read or a write decodes to is well formed, and SAVE and LOAD have no address. -/
theorem decodedIsWellFormed : Obligations.DecodedIsWellFormed := by
  intro kind address data i h
  obtain ⟨a, rfl⟩ | ⟨a, d, rfl⟩ | rfl | rfl := decodeFields_ok h
  · exact decodeRead_wellFormed a
  · exact decodeWrite_wellFormed a d
  · rfl
  · rfl

/-- Settles O1: the fourteen words, each evaluated by the decoder. -/
theorem specWordsDecode : Obligations.SpecWordsDecode := by
  unfold Obligations.SpecWordsDecode
  decide

/-- Settles O6: the kind of such a number is above 3. -/
theorem noOperationAbove26Bits : Obligations.NoOperationAbove26Bits := by
  intro w hw
  have hkind : 4 ≤ wordKind w := by
    rw [wordKind]
    omega
  exact decodeFields_of_kind_ge hkind _ _

end Sys2Proof
end

section
/-! PROOF. The invariant: its base and its step (10_state.md R29, section 5). -/

namespace Sys2Proof.Machine

/-- Every effect keeps the invariant: the clamp keeps the low bank off 0, and a stored byte lies inside the image. -/
theorem Effect.inv {i : Instr} {s t : State} (h : Effect s i t) (hs : s.Inv) : t.Inv := by
  obtain ⟨hlow, hram, hrom⟩ := hs
  cases h with
  | lowBankSet a d => exact ⟨lowBankOf_ne_zero d, hram, hrom⟩
  | byteStored a d _ hasRam => exact ⟨hlow, Memory.wf_write hram (State.ramOffset_lt a s hasRam) d, hrom⟩
  | imageLoaded bs _ length =>
    have hcells : (Memory.ofBytes bs).wf s.ramSize = true := length ▸ Memory.wf_ofBytes bs
    exact ⟨hlow, hcells, hrom⟩
  | _ => exact ⟨hlow, hram, hrom⟩

/-- Settles O17: taking the request from the stream touches nothing of the invariant, and the operation keeps it. -/
theorem stepKeepsInvariant : Obligations.StepKeepsInvariant := by
  intro s t hs h
  obtain ⟨r, rest, i, -, -, hexec⟩ := step_next h
  have htake : (s.take r rest).Inv := hs
  exact (effect_of_exec_next hexec).inv htake

theorem State.fresh_inv (b : Byte) (bs init : List Byte) : (State.fresh b bs init).Inv :=
  ⟨(by decide : (1 : BitVec 5) ≠ 0), Memory.wf_ofBytes init, Memory.wf_ofBytes (b :: bs)⟩

/-- Settles O16: both images of a new controller are written out from byte sequences of their sizes. -/
theorem newControllerMeetsInvariant : Obligations.NewControllerMeetsInvariant :=
  ⟨State.fresh_inv, State.fresh_inv _ _ _⟩

end Sys2Proof.Machine
end

section
/-! SUPPORT. The offsets inside their images, and as remainders and banks (00_scope.md R9, 40_address_decoder.md R112 to
R115 and section 4). -/

namespace Sys2Proof.Machine

/-- A mask `n - 1` gives a number below `n`, whatever `n` is. -/
theorem and_pred_lt {n : Nat} (hn : 0 < n) (x : Nat) : x &&& (n - 1) < n :=
  Nat.lt_of_le_of_lt Nat.and_le_right (Nat.sub_lt hn Nat.one_pos)

/-- With a power of two the mask is a remainder (00_scope.md R9). -/
theorem and_pred_eq_mod {n : Nat} (hn : IsPow2 n) (x : Nat) : x &&& (n - 1) = x % n := by
  obtain ⟨k, rfl⟩ := hn
  exact Nat.and_two_pow_sub_one_eq_mod x k

/-- The remainder by a number of whole banks keeps the offset in the bank. -/
theorem mul_add_mod_mul {m r : Nat} (hr : r < m) (bank nb : Nat) : (bank * m + r) % (nb * m) = bank % nb * m + r := by
  have hquot : (bank * m + r) / m = bank := by
    rw [Nat.add_comm, Nat.add_mul_div_right _ _ (Nat.zero_lt_of_lt hr), Nat.div_eq_of_lt hr, Nat.zero_add]
  rw [Nat.mul_comm nb, Nat.mod_mul, hquot, Nat.mul_add_mod_self_right, Nat.mod_eq_of_lt hr, Nat.mul_comm m,
    Nat.add_comm]

variable (s : State) (a : Address)

/-- Every ROM offset lies inside the image (40_address_decoder.md R115). -/
theorem State.romOffset_lt (hi lo : Nat) : s.romOffset hi lo a < s.romSize :=
  and_pred_lt (Nat.succ_pos s.rom.last) _

theorem State.lowRegionOffset_lt : s.lowRegionOffset a < s.romSize :=
  s.romOffset_lt a _ _

theorem State.switchableRegionOffset_lt : s.switchableRegionOffset a < s.romSize :=
  s.romOffset_lt a _ _

/-- The RAM offset with its bank written out (40_address_decoder.md R111, R113). -/
theorem State.ramOffset_eq_bank : s.ramOffset a =
    ((if s.mode = .mode1 then s.secondaryBankBits.toNat else 0) * 0x2000 + a.toNat % 0x2000) &&& (s.ramSize - 1) := by
  rw [State.ramOffset_eq, State.msb2_eq]
  rfl

section WholeBanks

variable {s} {nb : Nat} (hpow : IsPow2 s.romSize) (hsize : s.romSize = nb * 0x4000)
include hpow hsize

/-- A masked ROM offset of an unmasked bank, in a power-of-two ROM of whole banks (40_address_decoder.md R122). -/
theorem State.bank_and_romMask (bank : Nat) :
    (bank * 0x4000 + a.toNat % 0x4000) &&& s.romMask = bank % nb * 0x4000 + a.toNat % 0x4000 := by
  rw [State.romMask, and_pred_eq_mod hpow, hsize, mul_add_mod_mul (Nat.mod_lt _ (by decide))]

theorem State.switchableRegionOffset_eq_of_whole_banks : s.switchableRegionOffset a =
    (s.secondaryBankBits.toNat * 32 + s.lowBankBits.toNat) % nb * 0x4000 + a.toNat % 0x4000 := by
  rw [State.switchableRegionOffset_eq, State.bank_and_romMask a hpow hsize]

theorem State.lowRegionOffset_eq_of_whole_banks :
    s.lowRegionOffset a = s.msb2 * 32 % nb * 0x4000 + a.toNat % 0x4000 := by
  rw [State.lowRegionOffset_eq, ← State.bank_and_romMask a hpow hsize, Nat.mul_assoc]

/-- The physical bank the switchable region shows (40_address_decoder.md R122). -/
theorem State.switchableRegionBank_eq : s.switchableRegionOffset a / 0x4000 =
    (s.secondaryBankBits.toNat * 32 + s.lowBankBits.toNat) % nb := by
  rw [State.switchableRegionOffset_eq_of_whole_banks a hpow hsize]
  omega

end WholeBanks

/-- A ROM of `2 ^ k` banks has a power of two of bytes. -/
theorem isPow2_banks {n nb : Nat} (k : Nat) (hnb : nb = 2 ^ k) (hn : n = nb * 0x4000) : IsPow2 n :=
  ⟨k + 14, by rw [hn, hnb, Nat.pow_add]⟩

end Sys2Proof.Machine
end

section
/-! PROOF. Offsets and physical banks (00_scope.md section 3, 40_address_decoder.md section 4). -/

namespace Sys2Proof.Machine

/-- Settles O37: each offset is its unmasked sum under a mask, and the mask of a power of two is a remainder. -/
theorem offsetsWrapModuloTheSizes : Obligations.OffsetsWrapModuloTheSizes := by
  rintro s a ⟨hrom, hram⟩
  refine ⟨?_, ?_, ?_⟩
  · rw [State.lowRegionOffset_eq]
    exact and_pred_eq_mod hrom _
  · rw [State.switchableRegionOffset, State.romOffset_eq s _ s.lowBankBits.isLt]
    exact and_pred_eq_mod hrom _
  · rw [State.ramOffset_eq]
    exact and_pred_eq_mod hram _

/-- Settles O38: the remainder by whole banks is taken of the bank alone. -/
theorem physicalRomBanks : Obligations.PhysicalRomBanks := fun _ a _ hpow hsize =>
  ⟨State.switchableRegionOffset_eq_of_whole_banks a hpow hsize, State.lowRegionOffset_eq_of_whole_banks a hpow hsize⟩

/-- Settles O39: the bank is `32 * sec + low` modulo the number of banks, and the low bank is 1 to 31. -/
theorem switchableRegionAndBankZero : Obligations.SwitchableRegionAndBankZero := by
  rintro s a nb ⟨hlow, -, -⟩ hsize
  obtain ⟨hpos, hle⟩ := toNat_legal_of_ne_zero hlow
  have hbank (k : Nat) (hnb : nb = 2 ^ k) := State.switchableRegionBank_eq a (isPow2_banks k hnb hsize) hsize
  constructor
  · rintro (rfl | rfl | rfl)
    · rw [hbank 5 rfl]
      omega
    · rw [hbank 6 rfl]
      omega
    · rw [hbank 7 rfl]
      omega
  · rintro (rfl | rfl | rfl | rfl | rfl)
    · rw [hbank 0 rfl]
      omega
    · rw [hbank 1 rfl]
      omega
    · rw [hbank 2 rfl]
      omega
    · rw [hbank 3 rfl]
      omega
    · rw [hbank 4 rfl]
      omega

end Sys2Proof.Machine
end

section
/-! PROOF. What the bus master reads straight after construction (70_reset_and_hazards.md R214). -/

namespace Sys2Proof.Machine

section Fresh

variable (b : Byte) (bs init : List Byte) (a : Address)

/-- A new controller shows bank 0 in the low region. -/
theorem State.getElem?_eq_romByte_fresh_lowRegion : (b :: bs)[(a.toNat % 0x4000) &&& ((b :: bs).length - 1)]? =
    some ((State.fresh b bs init).romByte ((State.fresh b bs init).lowRegionOffset a)) := by
  rw [State.lowRegionOffset_eq_of_bank_zero _ a (.inl rfl)]
  exact State.getElem?_eq_romByte_fresh b bs init (and_pred_lt (Nat.succ_pos _) _)

/-- A new controller shows bank 1 in the switchable region. -/
theorem State.getElem?_eq_romByte_fresh_switchableRegion :
    (b :: bs)[(0x4000 + a.toNat % 0x4000) &&& ((b :: bs).length - 1)]? =
      some ((State.fresh b bs init).romByte ((State.fresh b bs init).switchableRegionOffset a)) := by
  have hbank :
      (State.fresh b bs init).secondaryBankBits.toNat * 32 + (State.fresh b bs init).lowBankBits.toNat = 1 := rfl
  rw [State.switchableRegionOffset_eq, hbank, Nat.one_mul]
  exact State.getElem?_eq_romByte_fresh b bs init (and_pred_lt (Nat.succ_pos _) _)

end Fresh

/-- Settles O15: the latches of a new controller select banks 0 and 1 and close the RAM gate. -/
theorem readsAfterConstruction : Obligations.ReadsAfterConstruction := by
  intro rom init t a hnew
  obtain ⟨b, bs, rfl, rfl⟩ := construct_next hnew
  exact ⟨⟨_, _, exec_rdRom0 a _, rfl, State.getElem?_eq_romByte_fresh_lowRegion b bs init a⟩,
    ⟨_, _, exec_rdRomX a _, rfl, State.getElem?_eq_romByte_fresh_switchableRegion b bs init a⟩,
    exec_rdRam_disabled a rfl, exec_rdNone a _⟩

/-- Settles O13: construction is by the first byte of the image, and there is none. -/
theorem emptyRomIsRefused : Obligations.EmptyRomIsRefused := fun _ => rfl

/-- Settles O14: `State.reset` is the new controller over the free parameters. -/
theorem resetLatches : Obligations.ResetLatches :=
  ⟨rfl, rfl, rfl, rfl, rfl⟩

end Sys2Proof.Machine
end

section
/-! PROOF. Window 5 behind the RAM gate, and what changes the RAM image (40_address_decoder.md R118 to R124, 10_state.md
section 3). -/

namespace Sys2Proof.Machine

/-- Settles O21: RD.NONE returns the sentinel, whatever the state. -/
theorem rdNoneReadsTheSentinel : Obligations.RdNoneReadsTheSentinel := fun a s =>
  exec_rdNone a s

/-- Settles O22: the three outcomes of the gate, with the offset written out. -/
theorem rdRamReadsBehindTheGate : Obligations.RdRamReadsBehindTheGate := by
  intro a s bank
  refine ⟨exec_rdRam_disabled a, fun hen hs => ?_, exec_rdRam_absent a⟩
  rw [exec_rdRam_enabled a hen hs, State.ramOffset_eq_bank]
  rfl

/-- Settles O23: the three outcomes of the gate; an image in canonical form changes at the offset alone. -/
theorem wrRamWritesBehindTheGate : Obligations.WrRamWritesBehindTheGate := by
  intro a d s bank off
  refine ⟨exec_wrRam_disabled a d, fun hen hs ⟨_, hram, _⟩ => ?_, exec_wrRam_absent a d⟩
  have hoff : s.ramOffset a = off := s.ramOffset_eq_bank a
  have hread (x : Nat) : (s.setRamByte off d).ramByte x = if x = off then d else s.ramByte x :=
    State.ramByte_setRamByte (h := hram) (x := x) ..
  have hexec : exec (.wrRam a d) s = .next ((s.setRamByte off d).returning .unit) :=
    hoff ▸ exec_wrRam_enabled a d hen hs
  refine ⟨_, hexec, hoff, ?_, fun x hx => ?_, rfl, fun _ => rfl, rfl⟩
  · exact (hread off).trans (if_pos rfl)
  · exact (hread x).trans (if_neg hx)

/-- Settles O40: the write leaves the offsets as they are, and the image changes at one of them. -/
theorem writeThenReadReturnsTheByte : Obligations.WriteThenReadReturnsTheByte := by
  rintro s t a b d ⟨-, hram, -⟩ hs hen h
  cases (exec_wrRam_enabled a d hen hs).symm.trans h
  have hread : (s.setRamByte (s.ramOffset a) d).ramByte (s.ramOffset b) =
      if s.ramOffset b = s.ramOffset a then d else s.ramByte (s.ramOffset b) :=
    State.ramByte_setRamByte (h := hram) (x := s.ramOffset b) ..
  rw [← hread]
  exact exec_rdRam_enabled b hen hs

/-- The RAM image changes only when WR.RAM stores a byte behind the open gate, or when LOAD succeeds. -/
theorem Effect.store_of_ram_ne {i : Instr} {s t : State} (h : Effect s i t) (hne : t.ram ≠ s.ram) :
    (∃ a d, i = .wrRam a d ∧ s.ramEnabled = true ∧ 1 ≤ s.ramSize ∧
      t.ram.cells = s.ram.cells.write (s.ramOffset a) d) ∨ (i = .load ∧ t.result = .loaded) := by
  cases h with
  | byteStored a d enabled hasRam => exact .inl ⟨a, d, rfl, enabled, hasRam, rfl⟩
  | imageLoaded bs _ _ => exact .inr ⟨rfl, rfl⟩
  | _ => exact absurd rfl hne

/-- Settles O44: no effect changes the size, and two of them store. -/
theorem ramChangesOnlyByWriteAndLoad : Obligations.RamChangesOnlyByWriteAndLoad := by
  intro i s t h
  have heffect := effect_of_exec_next h
  refine ⟨heffect.ramSize_eq, fun hne => ?_⟩
  obtain ⟨a, d, hi, hen, -, -⟩ | hload := heffect.store_of_ram_ne hne
  · exact .inl ⟨hen, a, d, hi⟩
  · exact .inr hload

/-- Settles O45: WR.RAM and RD.RAM stop at the closed gate, and no other bus operation looks at the RAM image. -/
theorem disabledRamIsIsolated : Obligations.DisabledRamIsIsolated := by
  intro i s ram hen hsave hload
  cases i with
  | rdRam a => exact ⟨_, exec_rdRam_disabled a hen, rfl, exec_rdRam_disabled (s := { s with ram := ram }) a hen⟩
  | wrRam a d => exact ⟨_, exec_wrRam_disabled a d hen, rfl, exec_wrRam_disabled (s := { s with ram := ram }) a d hen⟩
  | save => exact absurd rfl hsave
  | load => exact absurd rfl hload
  | _ => exact ⟨_, rfl, rfl, rfl⟩

end Sys2Proof.Machine
end

section
/-! PROOF. A repeated write (20_memory.md section 2). -/

namespace Sys2Proof.Machine

/-- Storing a byte where it already stands changes nothing, in an image in canonical form. -/
theorem State.setRamByte_setRamByte_same {s : State} {off : Nat} (hram : s.ram.cells.wf s.ramSize = true)
    (hoff : off < s.ramSize) (d : Byte) : (s.setRamByte off d).setRamByte off d = s.setRamByte off d := by
  have hwf := Memory.wf_write hram hoff d
  have hcells : (s.ram.cells.write off d).write off d = s.ram.cells.write off d := by
    refine Memory.wf_ext (Memory.wf_write hwf hoff d) hwf fun x => ?_
    rw [Memory.read_write hwf, Memory.read_write hram]
    split_ifs <;> rfl
  simp only [State.setRamByte, hcells]

theorem exec_wrRam_idempotent {a : Address} {d : Byte} {s t : State} (hs : s.Inv) (h : exec (.wrRam a d) s = .next t) :
    exec (.wrRam a d) t = .next t := by
  obtain ⟨hen, rfl⟩ | ⟨hen, hsize, rfl⟩ := exec_wrRam_next h
  · exact exec_wrRam_disabled a d hen
  · have hsame := State.setRamByte_setRamByte_same hs.2.1 (State.ramOffset_lt a s hsize) d
    have hagain : exec (.wrRam a d) ((s.setRamByte (s.ramOffset a) d).returning .unit) =
        .next (((s.setRamByte (s.ramOffset a) d).setRamByte (s.ramOffset a) d).returning .unit) :=
      exec_wrRam_enabled a d hen hsize
    rw [hagain, hsame]

/-- Settles O48: a control write stores a value of the data alone, and WR.RAM stores the byte that stands there. -/
theorem repeatedWriteIsIdempotent : Obligations.RepeatedWriteIsIdempotent := by
  intro a d i hi s t hs h
  simp only [List.mem_cons, List.not_mem_nil, or_false] at hi
  obtain rfl | rfl | rfl | rfl | rfl | rfl := hi
  case inr.inr.inr.inr.inr => exact exec_wrRam_idempotent hs h
  all_goals
    cases h
    rfl

end Sys2Proof.Machine
end

section
/-! PROOF. The mode gates the secondary bits (40_address_decoder.md R111). -/

namespace Sys2Proof.Machine

theorem modeOf_eq_mode1_iff (d : Byte) : modeOf d = .mode1 ↔ d.toNat % 2 = 1 := by
  rw [modeOf_eq]
  split_ifs with h <;> simp [h]

/-- Settles O50: `msb2()` looks at the mode just written. -/
theorem modeGatesTheSecondaryBits : Obligations.ModeGatesTheSecondaryBits := by
  intro a d s
  refine ⟨_, exec_wrMode a d s, ?_⟩
  rw [State.msb2_eq]
  exact if_congr (modeOf_eq_mode1_iff d) rfl rfl

end Sys2Proof.Machine
end

section
/-! PROOF. The round trip of the RAM image, and the two failures (42_persistence.md R162, R164, section 4). -/

namespace Sys2Proof.Machine

/-- A SAVE that succeeds returns the image written out. -/
theorem eq_ramBytes_of_saveResult_eq {s : State} {bs : List Byte} (h : saveResult s = .saved bs) : bs = s.ramBytes := by
  unfold saveResult at h
  split at h
  · cases h
    rfl
  · cases h

/-- The image written out of one state and read into another of the same `RAM_SIZE` is the image. -/
theorem State.setRamBytes_ramBytes_ram {s u : State} (hram : s.ram.cells.wf s.ramSize = true)
    (hsize : u.ramSize = s.ramSize) : (u.setRamBytes s.ramBytes).ram = s.ram := by
  have hcells : Memory.ofBytes s.ramBytes = s.ram.cells := Memory.ofBytes_toBytes hram
  have hsize' : u.ram.size = s.ram.size := hsize
  simp only [State.setRamBytes, hcells, hsize']

/-- Settles O34: the saved bytes are `RAM_SIZE` many, so the load succeeds, and they are the image written out. -/
theorem saveThenLoadRestoresTheImage : Obligations.SaveThenLoadRestoresTheImage := by
  rintro s t u bs ⟨-, hram, -⟩ hsave hsaved hsize hsource
  cases hsave
  obtain rfl := eq_ramBytes_of_saveResult_eq hsaved
  have hload := exec_load_of_length_eq hsource (s.length_ramBytes.trans hsize.symm)
  exact ⟨_, hload, rfl, State.setRamBytes_ramBytes_ram hram hsize, rfl⟩

/-- Settles O30: the result of a failing sink is IOError, and SAVE records its result alone. -/
theorem failedSaveChangesNothing : Obligations.FailedSaveChangesNothing := by
  intro s hsink
  rw [exec_save, saveResult, hsink]
  rfl

/-- Settles O32: a source that is unavailable or of another length fails, and nothing but the result is recorded. -/
theorem failedLoadChangesNothing : Obligations.FailedLoadChangesNothing := by
  refine fun s => ⟨fun hsource => ?_, fun bs hsource hlength => ?_⟩
  · rw [exec_load, hsource]
    rfl
  · rw [exec_load, hsource, loadFrom, if_neg hlength]
    rfl

end Sys2Proof.Machine
end

section
/-! PROOF. The address decoder, and the accesses that follow it (40_address_decoder.md R114, R115). -/

namespace Sys2Proof.Machine

section Regions

variable (s : State) {a : Address}

theorem State.decodeAddress_eq_ite (a : Address) : s.decodeAddress a =
    if a.toNat ≤ 0x3FFF then .romOff (s.lowRegionOffset a)
    else if 0x4000 ≤ a.toNat ∧ a.toNat ≤ 0x7FFF then .romOff (s.switchableRegionOffset a)
    else if 0xA000 ≤ a.toNat ∧ a.toNat ≤ 0xBFFF then
      (if s.ramSize = 0 then .ramUndefined else .ramOff (s.ramOffset a))
    else .noData := by
  refine if_congr ?_ rfl (if_congr ?_ rfl (if_congr ?_ rfl rfl)) <;> simp [window_eq_iff] <;> omega

theorem State.decodeAddress_lowRegion (h : a.toNat ≤ 0x3FFF) : s.decodeAddress a = .romOff (s.lowRegionOffset a) := by
  rw [State.decodeAddress_eq_ite, if_pos h]

theorem State.decodeAddress_switchableRegion (h : 0x4000 ≤ a.toNat ∧ a.toNat ≤ 0x7FFF) :
    s.decodeAddress a = .romOff (s.switchableRegionOffset a) := by
  rw [State.decodeAddress_eq_ite, if_neg (by omega), if_pos h]

theorem State.decodeAddress_ramWindow (h : 0xA000 ≤ a.toNat ∧ a.toNat ≤ 0xBFFF) :
    s.decodeAddress a = if s.ramSize = 0 then .ramUndefined else .ramOff (s.ramOffset a) := by
  rw [State.decodeAddress_eq_ite, if_neg (by omega), if_neg (by omega), if_pos h]

theorem State.decodeAddress_noFunction (h : (0x8000 ≤ a.toNat ∧ a.toNat ≤ 0x9FFF) ∨ 0xC000 ≤ a.toNat) :
    s.decodeAddress a = .noData := by
  rw [State.decodeAddress_eq_ite, if_neg (by omega), if_neg (by omega), if_neg (by omega)]

/-- The four outcomes of the decoder, each with its window and its bound (40_address_decoder.md R114, R115). -/
theorem State.decodeAddress_cases (a : Address) :
    (a.toNat / 0x2000 < 4 ∧ ∃ o < s.romSize, s.decodeAddress a = .romOff o) ∨
    (a.toNat / 0x2000 = 5 ∧ s.ramSize ≠ 0 ∧ ∃ o < s.ramSize, s.decodeAddress a = .ramOff o) ∨
    (a.toNat / 0x2000 = 5 ∧ s.ramSize = 0 ∧ s.decodeAddress a = .ramUndefined) ∨
    ((a.toNat / 0x2000 = 4 ∨ 6 ≤ a.toNat / 0x2000) ∧ s.decodeAddress a = .noData) := by
  rcases Address.readRegion_cases a with h | h | h | h
  · exact .inl ⟨by omega, _, s.lowRegionOffset_lt a, s.decodeAddress_lowRegion h⟩
  · exact .inl ⟨by omega, _, s.switchableRegionOffset_lt a, s.decodeAddress_switchableRegion h⟩
  · have hram := s.decodeAddress_ramWindow h
    by_cases hs : s.ramSize = 0
    · exact .inr (.inr (.inl ⟨by omega, hs, by rw [hram, if_pos hs]⟩))
    · have hlt := State.ramOffset_lt a s (Nat.one_le_iff_ne_zero.mpr hs)
      exact .inr (.inl ⟨by omega, hs, _, hlt, by rw [hram, if_neg hs]⟩)
  · exact .inr (.inr (.inr ⟨by omega, s.decodeAddress_noFunction h⟩))

end Regions

/-- Settles O35: each outcome comes with the window and the bound it stands for, and no other. -/
theorem offsetsStayInsideTheImages : Obligations.OffsetsStayInsideTheImages := by
  intro s a
  obtain ⟨hw, o, ho, hd⟩ | ⟨hw, hs, o, ho, hd⟩ | ⟨hw, hs, hd⟩ | ⟨hw, hd⟩ := s.decodeAddress_cases a <;> rw [hd]
  · simp only [Decoded.romOff.injEq, reduceCtorEq, false_iff, false_implies, implies_true, forall_eq', true_and]
    omega
  · simp only [Decoded.ramOff.injEq, reduceCtorEq, false_iff, false_implies, implies_true, forall_eq', true_and]
    omega
  · simp only [reduceCtorEq, false_iff, true_iff, false_implies, implies_true, true_and]
    omega
  · simp only [reduceCtorEq, false_iff, true_iff, false_implies, implies_true, true_and]
    omega

section Write

variable {a b : Address} {d e : Byte}

/-- A bus write that selects WR.RAM is one of window 5, with its own address and data. -/
theorem eq_of_decodeWrite_eq_wrRam (h : decodeWrite a d = .wrRam b e) :
    (0xA000 ≤ a.toNat ∧ a.toNat ≤ 0xBFFF) ∧ b = a ∧ e = d := by
  rw [decodeWrite_eq_ite] at h
  split_ifs at h with h0 h1 h2 h3 h5
  cases h
  exact ⟨h5, rfl, rfl⟩

/-- No bus write is a LOAD. -/
theorem decodeWrite_ne_load (a : Address) (d : Byte) : decodeWrite a d ≠ .load := by
  rw [decodeWrite_eq_ite]
  split_ifs <;> nofun

end Write

/-- A bus read returns what the decoder's outcome stands for (40_address_decoder.md R116 to R119, R123). -/
theorem exec_decodeRead_eq (s : State) (a : Address) : exec (decodeRead a) s =
    match s.decodeAddress a with
    | .romOff o => .next (s.returning (.byte (s.romByte o)))
    | .ramOff o => .next (s.returning (.byte (if s.ramEnabled then s.ramByte o else openBus)))
    | .noData => .next (s.returning (.byte openBus))
    | .ramUndefined =>
      if s.ramEnabled then .fault (.ramAbsent a) else .next (s.returning (.byte openBus)) := by
  rcases Address.readRegion_cases a with h | h | h | h
  · rw [decodeRead_eq_rdRom0 h, s.decodeAddress_lowRegion h, exec_rdRom0]
  · rw [decodeRead_eq_rdRomX h, s.decodeAddress_switchableRegion h, exec_rdRomX]
  · rw [decodeRead_eq_rdRam h, s.decodeAddress_ramWindow h]
    by_cases hs : s.ramSize = 0
    · rw [if_pos hs]
      cases hen : s.ramEnabled with
      | false => exact exec_rdRam_disabled a hen
      | true => exact exec_rdRam_absent a hen hs
    · rw [if_neg hs]
      cases hen : s.ramEnabled with
      | false => exact exec_rdRam_disabled a hen
      | true => exact exec_rdRam_enabled a hen (Nat.one_le_iff_ne_zero.mpr hs)
  · rw [decodeRead_eq_rdNone h, s.decodeAddress_noFunction h, exec_rdNone]

/-- Settles O36: a read region by region; the one bus write that stores is WR.RAM, at the decoder's RAM offset. -/
theorem accessesFollowTheDecoder : Obligations.AccessesFollowTheDecoder := by
  refine fun s a d => ⟨exec_decodeRead_eq s a, fun t h hne => ?_⟩
  obtain ⟨b, e, hi, hen, hs, hcells⟩ | ⟨hi, -⟩ := (effect_of_exec_next h).store_of_ram_ne hne
  · obtain ⟨hw, rfl, rfl⟩ := eq_of_decodeWrite_eq_wrRam hi
    refine ⟨hen, s.ramOffset b, ?_, hcells⟩
    rw [s.decodeAddress_ramWindow hw, if_neg (Nat.one_le_iff_ne_zero.mp hs)]
  · exact absurd hi (decodeWrite_ne_load a d)

end Sys2Proof.Machine
end

section
/-! PROOF. What stops an operation, and what stops a step (60_exceptions.md section 1). -/

namespace Sys2Proof.Machine

theorem exec_ne_refused (i : Instr) (s : State) (r : Refusal) : exec i s ≠ .refused r := by
  cases i with
  | rdRam a => exact exec_rdRam a s ▸ State.ramAccess_refused
  | wrRam a d => exact exec_wrRam a d s ▸ State.ramAccess_refused
  | _ => nofun

/-- The one fault, with everything that is true when it is raised (60_exceptions.md R183). -/
theorem exec_fault {i : Instr} {s : State} {f : Fault} (h : exec i s = .fault f) :
    s.ramEnabled = true ∧ s.ramSize = 0 ∧ ∃ a, f = .ramAbsent a ∧ (i = .rdRam a ∨ ∃ d, i = .wrRam a d) := by
  cases i with
  | rdRam a =>
    obtain ⟨hen, hs, hf⟩ := exec_rdRam_fault h
    exact ⟨hen, hs, a, hf, .inl rfl⟩
  | wrRam a d =>
    obtain ⟨hen, hs, hf⟩ := exec_wrRam_fault h
    exact ⟨hen, hs, a, hf, .inr ⟨d, rfl⟩⟩
  | _ => cases h

/-- Settles O52: the RAM gate is all that can stop an operation. -/
theorem onlyRamAbsentStops : Obligations.OnlyRamAbsentStops := by
  refine fun i s => ⟨exec_ne_refused i s, fun f => ⟨exec_fault, ?_⟩⟩
  rintro ⟨hen, hs, a, rfl, rfl | ⟨d, rfl⟩⟩
  · exact exec_rdRam_absent a hen hs
  · exact exec_wrRam_absent a d hen hs

/-- With a RAM every operation has a next state (60_exceptions.md R180). -/
theorem exec_next_of_hasRam {s : State} (hs : s.HasRam) (i : Instr) : ∃ t, exec i s = .next t := by
  cases h : exec i s with
  | next t => exact ⟨t, rfl⟩
  | fault f =>
    obtain ⟨-, hzero, -⟩ := exec_fault h
    exact absurd hzero (Nat.one_le_iff_ne_zero.mp hs)
  | refused r => exact absurd h (exec_ne_refused i s r)

theorem fetch_of_decodeFields {r : Request} {i : Instr} (h : decodeFields r.kind r.address r.data = .ok i) :
    fetch r = .ok i := by
  rw [fetch, h]

theorem fetch_ofWord {w : Nat} {i : Instr} (h : decodeWord w = .ok i) (host : HostSide) :
    fetch (Request.ofWord w host) = .ok i :=
  fetch_of_decodeFields h

/-- A read or a write within the widths of the bus is fetched as an operation (30_encoding.md R85). -/
theorem exists_fetch_of_narrow {r : Request} (hkind : r.kind ≤ 1) (haddress : r.address < 2 ^ 16)
    (hdata : r.data < 2 ^ 8) : ∃ i, fetch r = .ok i := by
  obtain ⟨kind, address, data, host⟩ := r
  obtain hk | hk : kind = 0 ∨ kind = 1 := by
    have : kind ≤ 1 := hkind
    omega
  · subst hk
    exact ⟨_, fetch_of_decodeFields (if_pos haddress)⟩
  · subst hk
    exact ⟨_, fetch_of_decodeFields (if_pos ⟨haddress, hdata⟩)⟩

/-- Settles O53: such a request is fetched, and with a RAM, or for SAVE and LOAD, the operation has a next state. -/
theorem everyAccessCompletes : Obligations.EveryAccessCompletes := by
  refine fun s r rest hstream => ⟨fun hram hkind haddress hdata => ?_, fun hkind => ?_⟩
  · obtain ⟨i, hi⟩ := exists_fetch_of_narrow hkind haddress hdata
    rw [step_of_fetch hstream hi]
    exact exec_next_of_hasRam (s := s.take r rest) hram i
  · obtain ⟨kind, address, data, host⟩ := r
    obtain rfl | rfl : kind = 2 ∨ kind = 3 := hkind
    · exact ⟨_, (step_of_fetch hstream rfl).trans (exec_save _)⟩
    · exact ⟨_, (step_of_fetch hstream rfl).trans (exec_load _)⟩

/-- A request that is fetched as a refusal refuses the step. -/
theorem step_of_fetch_error {s : State} {r : Request} {rest : List Request} {e : Refusal} (hs : s.stream = r :: rest)
    (hf : fetch r = .error e) : step s = .refused e := by
  rw [step, hs]
  simp only [hf]

theorem fetch_of_decodeFields_precondition {r : Request}
    (h : decodeFields r.kind r.address r.data = .error .preconditionViolation) :
    fetch r = .error .preconditionViolation := by
  rw [fetch, h]

/-- Settles O10: the decoder's check of the widths fails, and the step refuses by its name. -/
theorem wideOperandsAreRefused : Obligations.WideOperandsAreRefused := by
  refine fun s rest h x y => ⟨fun hx => ?_, fun hxy => ?_⟩
  · have hwide : ¬x < 2 ^ 16 := Nat.not_lt.mpr hx
    exact step_of_fetch_error rfl (fetch_of_decodeFields_precondition (if_neg hwide))
  · have hwide : ¬(x < 2 ^ 16 ∧ y < 2 ^ 8) := fun ⟨hx, hy⟩ => hxy.elim (Nat.not_le.mpr hx) (Nat.not_le.mpr hy)
    exact step_of_fetch_error rfl (fetch_of_decodeFields_precondition (if_neg hwide))

/-- Whatever a request is fetched as, it is not the end of the run. -/
theorem fetch_ne_streamExhausted (r : Request) : fetch r ≠ .error .streamExhausted := by
  unfold fetch
  split <;> nofun

/-- Settles O11: neither a request nor an operation refuses by that name. -/
theorem exhaustedStreamEndsTheRun : Obligations.ExhaustedStreamEndsTheRun := by
  refine fun s => ⟨fun h => ?_, fun hs => by rw [step, hs]⟩
  cases hs : s.stream with
  | nil => rfl
  | cons r rest =>
    cases hf : fetch r with
    | error e =>
      cases (step_of_fetch_error hs hf).symm.trans h
      exact absurd hf (fetch_ne_streamExhausted r)
    | ok i => exact absurd ((step_of_fetch hs hf).symm.trans h) (exec_ne_refused i _ _)

/-- Settles O7: the request at the head of the stream is fetched as what its fields decode to. -/
theorem stepPerformsTheNextOperation : Obligations.StepPerformsTheNextOperation :=
  fun _ _ _ _ hs hdecode => step_of_fetch hs (fetch_of_decodeFields hdecode)

theorem decodeWord_of_decodeTableWord {nbits w : Nat} {i : Instr} (h : decodeTableWord nbits w = some i) :
    decodeWord w = .ok i := by
  unfold decodeTableWord at h
  split at h
  · rename_i hw
    cases h
    exact hw
  · cases h

/-- A state whose stream is replaced by a word's request performs the word. -/
theorem step_withFetchWord {s : State} {nbits w : Nat} {i : Instr} {host : HostSide} {rest : List Request}
    (hw : decodeWord w = .ok i) (hs : streamWithWord w s.host s.stream = Request.ofWord w host :: rest) :
    step (s.withFetchWord nbits w) = exec i { s with stream := rest, host := host } :=
  step_of_fetch (s := s.withFetchWord nbits w) hs (fetch_ofWord hw host)

/-- Settles O8: the placed word stands at the head of the stream, and what travels beside it is as before. -/
theorem fetchedWordIsPerformed : Obligations.FetchedWordIsPerformed := by
  intro s nbits w i h
  have hw := decodeWord_of_decodeTableWord h
  refine ⟨fun hs => ?_, fun r rest hs => step_withFetchWord hw (by rw [hs]; rfl)⟩
  rw [step_withFetchWord hw (by rw [hs]; rfl), ← hs]

/-- Settles O56: a named line is checked by well-formedness, and its one word decodes to the operation by O2. -/
theorem namedScriptLinesAreChecked : Obligations.NamedScriptLinesAreChecked := by
  refine fun i hsave hload => ⟨fun hwf => ?_, fun hwf => ?_⟩
  · exact ⟨_, if_pos ⟨hwf, hsave, hload⟩, fetch_ofWord (decodeOfEncode i hwf) _⟩
  · exact if_neg fun ⟨h, _⟩ => Bool.false_ne_true (hwf.symm.trans h)

end Sys2Proof.Machine
end

section
/-! SUPPORT. Runs of writes to the control windows (41_register_state_machine.md R140 to R149). -/

namespace Sys2Proof.Machine

/-- The state after a bus write of `d` to the address `x` of a control window: the one latch of the window has the value
computed from `d` (41_register_state_machine.md R140). -/
def State.controlWritten (s : State) (x : Nat) (d : Byte) : State :=
  { s with
    ramEnabled := if x / 0x2000 = 0 then enableOf d else s.ramEnabled
    lowBankBits := if x / 0x2000 = 1 then lowBankOf d else s.lowBankBits
    secondaryBankBits := if x / 0x2000 = 2 then secondaryBankOf d else s.secondaryBankBits
    mode := if x / 0x2000 = 3 then modeOf d else s.mode
    host := HostSide.initial
    result := .unit }

section OneWrite

variable (s : State) (d : Byte)

/-- A bus write to a control window is the write of its latch. -/
theorem exec_decodeWrite_control {a : Address} (ha : a.toNat < 0x8000) :
    exec (decodeWrite a d) { s with host := HostSide.initial } = .next (s.controlWritten a.toNat d) := by
  rcases Address.writeRegion_cases a with h | h | h | h | h
  · have hw : a.toNat / 0x2000 = 0 := by omega
    simp [decodeWrite_eq_wrRamen d h, exec_wrRamen, State.controlWritten, State.returning, hw]
  · have hw : a.toNat / 0x2000 = 1 := by omega
    simp [decodeWrite_eq_wrBank1 d h, exec_wrBank1, State.controlWritten, State.returning, hw]
  · have hw : a.toNat / 0x2000 = 2 := by omega
    simp [decodeWrite_eq_wrBank2 d h, exec_wrBank2, State.controlWritten, State.returning, hw]
  · have hw : a.toNat / 0x2000 = 3 := by omega
    simp [decodeWrite_eq_wrMode d h, exec_wrMode, State.controlWritten, State.returning, hw]
  · omega

/-- A step that finds a write to a control window at the head of the stream. -/
theorem step_controlWrite {x : Nat} (hx : x < 0x8000) (rest : List Request) :
    step { s with stream := Request.write x d.toNat :: rest } =
      .next ({ s with stream := rest }.controlWritten x d) := by
  obtain ⟨a, rfl⟩ : ∃ a : Address, a.toNat = x := ⟨BitVec.ofNat 16 x, Nat.mod_eq_of_lt (by omega)⟩
  exact (step_write s a d HostSide.initial rest).trans (exec_decodeWrite_control { s with stream := rest } d hx)

/-- A write to a control window and one more request: the request is performed by the state with the new latch. -/
theorem run_controlWrite_then {x : Nat} (hx : x < 0x8000) (r : Request) :
    core.run 2 { s with stream := [Request.write x d.toNat, r] } =
      step ({ s with stream := [r] }.controlWritten x d) :=
  (run_succ_of_next (step_controlWrite s d hx [r]) 1).trans (run_one _)

theorem run_controlWrite_read {x : Nat} (hx : x < 0x8000) (a : Address) :
    core.run 2 { s with stream := [Request.write x d.toNat, Request.read a.toNat] } =
      exec (decodeRead a) ({ s with stream := [] }.controlWritten x d) :=
  (run_controlWrite_then s d hx _).trans (step_read (s.controlWritten x d) a 0 HostSide.initial [])

theorem run_controlWrite_write {x : Nat} (hx : x < 0x8000) (a : Address) (e : Byte) :
    core.run 2 { s with stream := [Request.write x d.toNat, Request.write a.toNat e.toNat] } =
      exec (decodeWrite a e) ({ s with stream := [] }.controlWritten x d) :=
  (run_controlWrite_then s d hx _).trans (step_write (s.controlWritten x d) a e HostSide.initial [])

/-- Writes to two different control windows commute: each latch is written by one of them at most. -/
theorem State.controlWritten_comm {x y : Nat} (hxy : x / 0x2000 ≠ y / 0x2000) (e : Byte) :
    (s.controlWritten x d).controlWritten y e = (s.controlWritten y e).controlWritten x d := by
  have hswap {α : Type} (n : Nat) (u v w : α) :
      (if y / 0x2000 = n then u else if x / 0x2000 = n then v else w) =
        if x / 0x2000 = n then v else if y / 0x2000 = n then u else w :=
    ite_ite_comm (h := fun hy hx => hxy (hx.trans hy.symm)) ..
  simp only [State.controlWritten, hswap]

/-- The state after a write to a control window, with the stored values as arithmetic (10_state.md R33). -/
theorem State.controlWritten_eq (x : Nat) : s.controlWritten x d =
    { s with
      ramEnabled := if x / 0x2000 = 0 then decide (d.toNat % 16 = 0xA) else s.ramEnabled
      lowBankBits := if x / 0x2000 = 1 then BitVec.ofNat 5 (max 1 (d.toNat % 32)) else s.lowBankBits
      secondaryBankBits := if x / 0x2000 = 2 then BitVec.ofNat 2 (d.toNat % 4) else s.secondaryBankBits
      mode := if x / 0x2000 = 3 then (if d.toNat % 2 = 1 then .mode1 else .mode0) else s.mode
      host := HostSide.initial
      result := .unit } := by
  rw [State.controlWritten, enableOf_eq, lowBankOf_eq, secondaryBankOf_eq, modeOf_eq]

/-- `msb2()` after a write of the secondary bank (40_address_decoder.md R111). -/
theorem State.msb2_controlWritten_secondaryBank :
    (s.controlWritten 0x4000 d).msb2 = if s.mode = .mode1 then d.toNat % 4 else 0 := by
  rw [State.msb2_eq, ← secondaryBankOf_toNat]
  rfl

/-- `msb2()` after a write of the mode (40_address_decoder.md R111). -/
theorem State.msb2_controlWritten_mode :
    (s.controlWritten 0x6000 d).msb2 = if d.toNat % 2 = 1 then s.secondaryBankBits.toNat else 0 := by
  rw [State.msb2_eq]
  exact if_congr (modeOf_eq_mode1_iff d) rfl rfl

end OneWrite

/-- A request that is a bus write of a byte to a control window. -/
def Request.IsControlWrite (r : Request) : Prop :=
  ∃ (x : Nat) (d : Byte), x < 0x8000 ∧ r = Request.write x d.toNat

theorem Request.isControlWrite_write {x y : Nat} (hx : x < 0x8000) (hy : y < 2 ^ 8) :
    (Request.write x y).IsControlWrite :=
  ⟨x, BitVec.ofNat 8 y, hx, by rw [BitVec.toNat_ofNat, Nat.mod_eq_of_lt hy]⟩

/-- The state after a request that is a write to a control window. -/
def State.afterControlWrite (s : State) (r : Request) : State :=
  s.controlWritten r.address (BitVec.ofNat 8 r.data)

/-- The state after a list of them, in their order. -/
def State.afterControlWrites (s : State) (ops : List Request) : State :=
  ops.foldl State.afterControlWrite s

theorem State.afterControlWrite_write (s : State) (x : Nat) (d : Byte) :
    s.afterControlWrite (Request.write x d.toNat) = s.controlWritten x d := by
  rw [State.afterControlWrite, Request.write, BitVec.ofNat_toNat, BitVec.setWidth_eq]

/-- A run over writes to the control windows completes and performs one after the other. -/
theorem run_controlWrites {ops : List Request} (hops : ∀ r ∈ ops, r.IsControlWrite) (s : State) :
    core.run ops.length { s with stream := ops } =
      .next ({ s with stream := [] }.afterControlWrites ops) := by
  induction ops generalizing s with
  | nil => exact run_zero _
  | cons r ops ih =>
    obtain ⟨⟨x, d, hx, rfl⟩, hrest⟩ := List.forall_mem_cons.mp hops
    rw [List.length_cons, run_succ_of_next (step_controlWrite s d hx ops), State.afterControlWrites,
      List.foldl_cons, State.afterControlWrite_write]
    exact ih hrest (s.controlWritten x d)

end Sys2Proof.Machine
end

section
/-! PROOF. Control writes commute, and reach every latch state (41_register_state_machine.md R149, 10_state.md section
7). -/

namespace Sys2Proof.Machine

/-- Settles O49: both orders complete, and the two latches are written whatever the order. -/
theorem controlWritesCommute : Obligations.ControlWritesCommute := by
  intro a b d e s ha hb hab
  have hrun (a b : Address) (d e : Byte) (ha : a.toNat < 0x8000) (hb : b.toNat < 0x8000) :
      core.run 2 { s with stream := [Request.write a.toNat d.toNat, Request.write b.toNat e.toNat] } =
        .next (({ s with stream := [] }.controlWritten a.toNat d).controlWritten b.toNat e) :=
    (run_controlWrite_write s d ha b e).trans
      (exec_decodeWrite_control ({ s with stream := [] }.controlWritten _ d) e hb)
  exact ⟨_, hrun a b d e ha hb, by rw [hrun b a e d hb ha, State.controlWritten_comm _ d hab e]⟩

theorem enableOf_surjective : Function.Surjective enableOf
  | true => ⟨0x0A, by decide⟩
  | false => ⟨0x00, by decide⟩

theorem modeOf_surjective : Function.Surjective modeOf
  | .mode0 => ⟨0, by decide⟩
  | .mode1 => ⟨1, by decide⟩

theorem secondaryBankOf_surjective : Function.Surjective secondaryBankOf := by
  decide

/-- Every legal low bank is stored by some byte; 0 by none (10_state.md R29). -/
theorem exists_lowBankOf_eq {lo : BitVec 5} (hlo : lo ≠ 0) : ∃ d, lowBankOf d = lo := by
  obtain ⟨hpos, hle⟩ := toNat_legal_of_ne_zero hlo
  refine ⟨BitVec.ofNat 8 lo.toNat, BitVec.eq_of_toNat_eq ?_⟩
  rw [lowBankOf_toNat, BitVec.toNat_ofNat]
  omega

/-- Two control writes lead to one state in either order. -/
def Request.Commute (q r : Request) : Prop :=
  ∀ s : State, (s.afterControlWrite q).afterControlWrite r = (s.afterControlWrite r).afterControlWrite q

/-- One write to each of the control windows. -/
def fourControlWrites (d0 d1 d2 d3 : Byte) : List Request :=
  [Request.write 0x0000 d0.toNat, Request.write 0x2000 d1.toNat, Request.write 0x4000 d2.toNat,
    Request.write 0x6000 d3.toNat]

section FourWrites

variable (d0 d1 d2 d3 : Byte)

theorem fourControlWrites_isControlWrite : ∀ r ∈ fourControlWrites d0 d1 d2 d3, r.IsControlWrite := by
  simp only [fourControlWrites, List.forall_mem_cons]
  exact ⟨⟨_, d0, by decide, rfl⟩, ⟨_, d1, by decide, rfl⟩, ⟨_, d2, by decide, rfl⟩, ⟨_, d3, by decide, rfl⟩, nofun⟩

theorem fourControlWrites_commute : ∀ q ∈ fourControlWrites d0 d1 d2 d3, ∀ r ∈ fourControlWrites d0 d1 d2 d3,
    Request.Commute q r := by
  have hwindows : (fourControlWrites d0 d1 d2 d3).Pairwise (fun q r => q.address / 0x2000 ≠ r.address / 0x2000) := by
    simp [fourControlWrites, Request.write]
  have hpairwise : (fourControlWrites d0 d1 d2 d3).Pairwise Request.Commute :=
    hwindows.imp fun h s => s.controlWritten_comm _ h _
  have hsymm : Std.Symm Request.Commute := ⟨fun _ _ h s => (h s).symm⟩
  exact hpairwise.forall_of_forall fun _ _ _ => rfl

/-- The four writes in any order set the four latches, and nothing else of the block. -/
theorem run_perm_fourControlWrites {ops : List Request} (hperm : ops.Perm (fourControlWrites d0 d1 d2 d3)) (s : State) :
    core.run 4 { s with stream := ops } = .next { s with
      ramEnabled := enableOf d0, mode := modeOf d3, lowBankBits := lowBankOf d1
      secondaryBankBits := secondaryBankOf d2, stream := [], host := HostSide.initial, result := .unit } := by
  have hops : ∀ r ∈ ops, r.IsControlWrite := fun r hr =>
    fourControlWrites_isControlWrite d0 d1 d2 d3 r (hperm.mem_iff.mp hr)
  have hlength : ops.length = 4 := hperm.length_eq
  have hfold : { s with stream := [] }.afterControlWrites ops =
      { s with stream := [] }.afterControlWrites (fourControlWrites d0 d1 d2 d3) :=
    (hperm.symm.foldl_eq' (fourControlWrites_commute d0 d1 d2 d3) _).symm
  rw [← hlength, run_controlWrites hops s, hfold]
  simp only [fourControlWrites, State.afterControlWrites, List.foldl_cons, List.foldl_nil,
    State.afterControlWrite_write]
  rfl

end FourWrites

/-- Settles O54: each latch value is stored by some byte, and the order of the four writes does not matter. -/
theorem everyLatchStateIsReached : Obligations.EveryLatchStateIsReached := by
  intro s en m lo sec hlo
  obtain ⟨d0, rfl⟩ := enableOf_surjective en
  obtain ⟨d1, rfl⟩ := exists_lowBankOf_eq hlo
  obtain ⟨d2, rfl⟩ := secondaryBankOf_surjective sec
  obtain ⟨d3, rfl⟩ := modeOf_surjective m
  exact ⟨d0, d1, d2, d3, fun ops hperm => run_perm_fourControlWrites d0 d1 d2 d3 hperm s⟩

end Sys2Proof.Machine
end

section
/-! PROOF. The pseudo-operations (30_encoding.md R91). -/

namespace Sys2Proof.Machine

/-- Every pseudo-operation stands for writes to the control windows alone. -/
theorem Pseudo.expand_isControlWrite (p : Pseudo) : ∀ r ∈ p.expand, r.IsControlWrite := by
  have hwrite {x y : Nat} (hx : x < 0x8000) (hy : y < 2 ^ 8) := Request.isControlWrite_write hx hy
  cases p with
  | ramOn => exact List.forall_mem_singleton.mpr (hwrite (by decide) (by decide))
  | ramOff => exact List.forall_mem_singleton.mpr (hwrite (by decide) (by decide))
  | bank1 n => exact List.forall_mem_singleton.mpr (hwrite (by decide) (by omega))
  | bank2 n => exact List.forall_mem_singleton.mpr (hwrite (by decide) (by omega))
  | mode m => exact List.forall_mem_singleton.mpr (hwrite (by decide) (by cases m <;> decide))
  | romBank n =>
    exact List.forall_mem_cons.mpr ⟨hwrite (by decide) (by omega),
      List.forall_mem_singleton.mpr (hwrite (by decide) (by omega))⟩
  | ramBank n => exact List.forall_mem_singleton.mpr (hwrite (by decide) (by omega))

theorem State.sameBlock_refl (s : State) : s.sameBlock s :=
  ⟨rfl, rfl, rfl, rfl, rfl, rfl⟩

theorem modeOf_toBit (m : Mode) : modeOf (BitVec.ofNat 8 m.toBit) = m := by
  cases m <;> decide

/-- A 2-bit operand is stored as it is. -/
theorem secondaryBankOf_ofNat (n : BitVec 2) : secondaryBankOf (BitVec.ofNat 8 n.toNat) = n := by
  refine BitVec.eq_of_toNat_eq ?_
  rw [secondaryBankOf_toNat, BitVec.toNat_ofNat]
  omega

/-- A 5-bit operand is stored with the clamp. -/
theorem lowBankOf_ofNat (n : BitVec 5) : (lowBankOf (BitVec.ofNat 8 n.toNat)).toNat = max 1 n.toNat := by
  rw [lowBankOf_toNat, BitVec.toNat_ofNat]
  omega

/-- ROMBANK splits its operand over the two bank latches, and the clamp makes a low part of 0 a 1. -/
theorem romBank_unmasked (n : BitVec 7) :
    (n.extractLsb' 5 2).toNat * 32 + max 1 (n.extractLsb' 0 5).toNat =
      if n.toNat % 32 = 0 then n.toNat + 1 else n.toNat := by
  have hn := n.isLt
  simp only [BitVec.extractLsb'_toNat, Nat.shiftRight_eq_div_pow]
  split_ifs <;> omega

/-- Settles O55: a run over the expansion performs its control writes, and each stores the value of the row. -/
theorem pseudoOperationsHaveTheirEffects : Obligations.PseudoOperationsHaveTheirEffects := by
  intro s p
  let u : State := { s with stream := [] }
  have hrun := run_controlWrites p.expand_isControlWrite s
  cases p with
  | ramOn =>
    exact ⟨u.controlWritten 0x0000 0x0A, hrun, rfl, rfl, (by decide : enableOf 0x0A = true), s.sameBlock_refl⟩
  | ramOff =>
    exact ⟨u.controlWritten 0x0000 0x00, hrun, rfl, rfl, (by decide : enableOf 0x00 = false), s.sameBlock_refl⟩
  | bank1 n =>
    exact ⟨u.controlWritten 0x2000 (BitVec.ofNat 8 n.toNat), hrun, rfl, rfl, lowBankOf_ofNat n, s.sameBlock_refl⟩
  | bank2 n =>
    exact ⟨u.controlWritten 0x4000 (BitVec.ofNat 8 n.toNat), hrun, rfl, rfl, secondaryBankOf_ofNat n,
      s.sameBlock_refl⟩
  | mode m =>
    exact ⟨u.controlWritten 0x6000 (BitVec.ofNat 8 m.toBit), hrun, rfl, rfl, modeOf_toBit m, s.sameBlock_refl⟩
  | romBank n =>
    refine ⟨(u.controlWritten 0x2000 (BitVec.ofNat 8 (n.extractLsb' 0 5).toNat)).controlWritten 0x4000
      (BitVec.ofNat 8 (n.extractLsb' 5 2).toNat), hrun, rfl, rfl, ?_, rfl, rfl⟩
    exact (congrArg₂ (fun (high : BitVec 2) (low : Nat) => high.toNat * 32 + low) (secondaryBankOf_ofNat _)
      (lowBankOf_ofNat _)).trans (romBank_unmasked n)
  | ramBank n =>
    refine ⟨u.controlWritten 0x4000 (BitVec.ofNat 8 n.toNat), hrun, rfl, rfl, ?_, s.sameBlock_refl⟩
    rw [State.msb2_controlWritten_secondaryBank, ← secondaryBankOf_toNat, secondaryBankOf_ofNat]

end Sys2Proof.Machine
end

section
/-! PROOF. A control write is seen by the very next operation (20_memory.md section 4). -/

namespace Sys2Proof.Machine

/-- A bus read completes and returns `v`. -/
def State.ReadReturns (s : State) (a : Address) (v : Byte) : Prop :=
  ∃ t, exec (decodeRead a) s = .next t ∧ t.result = .byte v

section Reads

variable (s : State) {a : Address}

theorem State.readReturns_lowRegion (ha : a.toNat / 0x4000 = 0) :
    s.ReadReturns a (s.romByte ((s.msb2 * 32 * 0x4000 + a.toNat % 0x4000) &&& s.romMask)) := by
  rw [Nat.mul_assoc, ← State.lowRegionOffset_eq]
  exact ⟨_, decodeRead_eq_rdRom0 (a := a) (by omega) ▸ exec_rdRom0 a s, rfl⟩

theorem State.readReturns_switchableRegion (ha : a.toNat / 0x4000 = 1) :
    s.ReadReturns a (s.romByte (((s.secondaryBankBits.toNat * 32 + s.lowBankBits.toNat) * 0x4000 +
      a.toNat % 0x4000) &&& s.romMask)) := by
  rw [← State.switchableRegionOffset_eq]
  exact ⟨_, decodeRead_eq_rdRomX (a := a) (by omega) ▸ exec_rdRomX a s, rfl⟩

theorem State.readReturns_ramWindow_disabled (ha : a.toNat / 0x2000 = 5) (hen : s.ramEnabled = false) :
    s.ReadReturns a openBus :=
  ⟨_, decodeRead_eq_rdRam (a := a) (by omega) ▸ exec_rdRam_disabled a hen, rfl⟩

theorem State.readReturns_ramWindow_enabled (ha : a.toNat / 0x2000 = 5) (hen : s.ramEnabled = true)
    (hs : 1 ≤ s.ramSize) : s.ReadReturns a (s.ramByte ((s.msb2 * 0x2000 + a.toNat % 0x2000) &&& s.ramMask)) := by
  rw [← State.ramOffset_eq]
  exact ⟨_, decodeRead_eq_rdRam (a := a) (by omega) ▸ exec_rdRam_enabled a hen hs, rfl⟩

end Reads

theorem enableOf_of_eq {d : Byte} (hd : d.toNat % 16 = 0xA) : enableOf d = true := by
  rw [enableOf_eq, hd]
  rfl

theorem enableOf_of_ne {d : Byte} (hd : d.toNat % 16 ≠ 0xA) : enableOf d = false := by
  rw [enableOf_eq]
  exact decide_eq_false hd

/-- Settles O51: the request after a control write is performed by the state with the new latch, and a read there is
that of its region with the new value in the offset or in the gate. -/
theorem latchWriteIsSeenByTheNextOperation : Obligations.LatchWriteIsSeenByTheNextOperation := by
  refine ⟨fun s c d r hc => ?_, fun s d a => ?_⟩
  · exact (run_controlWrite_then s d hc r).trans (congrArg step (State.controlWritten_eq _ d c.toNat))
  · intro read rom ram newSecondary newMode
    let after (c : Nat) : State := { s with stream := [] }.controlWritten c d
    have hread {c : Nat} {v : Byte} (hc : c < 0x8000) (h : (after c).ReadReturns a v) : read c v := by
      obtain ⟨t, ht, hv⟩ := h
      exact ⟨t, (run_controlWrite_read s d hc a).trans ht, hv⟩
    have hsecondary : (after 0x4000).msb2 = newSecondary := State.msb2_controlWritten_secondaryBank _ d
    have hmode : (after 0x6000).msb2 = newMode := State.msb2_controlWritten_mode _ d
    refine ⟨fun ha => ?_, fun ha => ?_, fun ha => ?_, fun ha => ?_, fun ha hd => ?_, fun ha hd hs => ?_,
      fun ha hen hs => ?_, fun ha hen hs => ?_⟩
    · rw [← lowBankOf_toNat]
      exact hread (by decide) (State.readReturns_switchableRegion (after 0x2000) ha)
    · rw [← secondaryBankOf_toNat]
      exact hread (by decide) (State.readReturns_switchableRegion (after 0x4000) ha)
    · rw [← hsecondary]
      exact hread (by decide) (State.readReturns_lowRegion (after 0x4000) ha)
    · rw [← hmode]
      exact hread (by decide) (State.readReturns_lowRegion (after 0x6000) ha)
    · exact hread (by decide) (State.readReturns_ramWindow_disabled (after 0x0000) ha (enableOf_of_ne hd))
    · rw [State.ramOffset_eq]
      exact hread (by decide) (State.readReturns_ramWindow_enabled (after 0x0000) ha (enableOf_of_eq hd) hs)
    · rw [← hsecondary]
      exact hread (by decide) (State.readReturns_ramWindow_enabled (after 0x4000) ha hen hs)
    · rw [← hmode]
      exact hread (by decide) (State.readReturns_ramWindow_enabled (after 0x6000) ha hen hs)

/-- A bus write to window 5 completes behind an open gate and stores its byte at the offset alone. -/
theorem exec_decodeWrite_stores {s : State} {a : Address} (hram : s.ram.cells.wf s.ramSize = true)
    (ha : a.toNat / 0x2000 = 5) (hen : s.ramEnabled = true) (hs : 1 ≤ s.ramSize) (e : Byte) :
    ∃ t, exec (decodeWrite a e) s = .next t ∧ ∀ x, t.ramByte x =
      if x = (s.msb2 * 0x2000 + a.toNat % 0x2000) &&& s.ramMask then e else s.ramByte x := by
  rw [decodeWrite_eq_wrRam e (by omega), ← State.ramOffset_eq]
  exact ⟨_, exec_wrRam_enabled a e hen hs, fun x => State.ramByte_setRamByte (h := hram) (x := x) ..⟩

/-- Settles O58: WR.RAM is performed by the state with the new latch, which opens or closes the gate or moves the
offset. -/
theorem latchWriteIsSeenByTheNextRamWrite : Obligations.LatchWriteIsSeenByTheNextRamWrite := by
  rintro s d e a ⟨-, hram, -⟩ ha two stores off
  let after (c : Nat) : State := { s with stream := [] }.controlWritten c d
  have htwo {c : Nat} (hc : c < 0x8000) : two c = exec (decodeWrite a e) (after c) :=
    run_controlWrite_write s d hc a e
  have hstores {c : Nat} (hc : c < 0x8000) (hen : (after c).ramEnabled = true) (hs : 1 ≤ s.ramSize) :
      stores c (off (after c).msb2) := by
    obtain ⟨t, ht, hread⟩ := exec_decodeWrite_stores (s := after c) hram ha hen hs e
    exact ⟨t, (htwo hc).trans ht, hread⟩
  refine ⟨fun hd => ?_, fun hd hs => ?_, fun hen hs => ⟨?_, ?_⟩⟩
  · rw [htwo (by decide), decodeWrite_eq_wrRam e (by omega)]
    exact ⟨_, exec_wrRam_disabled a e (enableOf_of_ne hd), rfl⟩
  · rw [State.ramOffset_eq]
    exact hstores (by decide) (enableOf_of_eq hd) hs
  · rw [← State.msb2_controlWritten_secondaryBank]
    exact hstores (by decide) hen hs
  · rw [← State.msb2_controlWritten_mode]
    exact hstores (by decide) hen hs

end Sys2Proof.Machine
end

section
/-! SUPPORT. The output ports of a bus access by the region of its address, and the offsets they carry (30_encoding.md
R81). -/

namespace Sys2Proof.Machine

section Access

variable (s : State) {a : Address} (d : Byte)

/-- A read of the two ROM regions: one offset inside the image gives the result and the ports. -/
theorem ports_decodeRead_rom (h : a.toNat < 0x8000) : ∃ o < s.romSize,
    exec (decodeRead a) s = .next (s.returning (.byte (s.romByte o))) ∧
    ports (decodeRead a) s =
      { Ports.idle with rdata := some (s.romByte o), responds := s.responds a, romOff := some o } := by
  rcases Nat.lt_or_ge a.toNat 0x4000 with hlow | hhigh
  · rw [decodeRead_eq_rdRom0 (Nat.le_of_lt_succ hlow)]
    exact ⟨_, s.lowRegionOffset_lt a, rfl, rfl⟩
  · rw [decodeRead_eq_rdRomX ⟨hhigh, Nat.le_of_lt_succ h⟩]
    exact ⟨_, s.switchableRegionOffset_lt a, rfl, rfl⟩

theorem ports_decodeRead_ramWindow (h : a.toNat / 0x2000 = 5) : ports (decodeRead a) s =
    { Ports.idle with
      rdata := s.ramReadPort a, responds := s.responds a, ramOff := s.ramOffPort a, ramSel := s.ramEnabled } := by
  rw [decodeRead_eq_rdRam (by omega)]
  rfl

theorem ports_decodeRead_noFunction (h : 0x8000 ≤ a.toNat) (h5 : a.toNat / 0x2000 ≠ 5) :
    exec (decodeRead a) s = .next (s.returning (.byte openBus)) ∧
    ports (decodeRead a) s = { Ports.idle with responds := s.responds a } := by
  rw [decodeRead_eq_rdNone (by omega)]
  exact ⟨rfl, rfl⟩

theorem ports_decodeWrite_ramWindow (h : a.toNat / 0x2000 = 5) : ports (decodeWrite a d) s =
    { Ports.idle with
      rdata := s.ramWriteRdata, ramOff := s.ramOffPort a, ramSel := s.ramEnabled, ramWe := s.ramEnabled
      ramWdata := some d } := by
  rw [decodeWrite_eq_wrRam d (by omega)]
  rfl

/-- A write outside window 5 selects nothing. -/
theorem ports_decodeWrite_notRam (h : a.toNat / 0x2000 ≠ 5) :
    ports (decodeWrite a d) s = { Ports.idle with ramWdata := some d } := by
  rw [decodeWrite_eq_ite, if_neg (c := 0xA000 ≤ a.toNat ∧ a.toNat ≤ 0xBFFF) (by omega)]
  split_ifs <;> rfl

end Access

section Offsets

variable {s : State} {i : Instr} {o : Nat}

/-- A ROM offset fits 21 bits, whatever the size of the image (30_encoding.md R81). -/
theorem State.romOffset_lt_two_pow (s : State) {hi lo : Nat} (hhi : hi < 4) (hlo : lo < 32) (a : Address) :
    s.romOffset hi lo a < 2 ^ 21 := by
  rw [State.romOffset_eq s hi hlo]
  exact Nat.lt_of_le_of_lt Nat.and_le_left (by omega)

/-- A RAM offset fits 15 bits, whatever the size of the image (30_encoding.md R81). -/
theorem State.ramOffset_lt_two_pow (s : State) (a : Address) : s.ramOffset a < 2 ^ 15 := by
  have hmsb := s.msb2_lt
  rw [State.ramOffset_eq]
  exact Nat.lt_of_le_of_lt Nat.and_le_left (by omega)

theorem State.ramOffPort_eq_some {a : Address} (h : s.ramOffPort a = some o) : o = s.ramOffset a := by
  unfold State.ramOffPort at h
  split at h
  · cases h
  · cases h
    rfl

theorem romOff_lt_two_pow (h : (ports i s).romOff = some o) : o < 2 ^ 21 := by
  cases i with
  | rdRom0 a =>
    cases h
    exact s.romOffset_lt_two_pow s.msb2_lt (by decide) a
  | rdRomX a =>
    cases h
    exact s.romOffset_lt_two_pow s.secondaryBankBits.isLt s.lowBankBits.isLt a
  | _ => cases h

theorem ramOff_lt_two_pow (h : (ports i s).ramOff = some o) : o < 2 ^ 15 := by
  cases i with
  | rdRam a => exact State.ramOffPort_eq_some h ▸ s.ramOffset_lt_two_pow a
  | wrRam a d => exact State.ramOffPort_eq_some h ▸ s.ramOffset_lt_two_pow a
  | _ => cases h

/-- `ram_we` is 1 only in WR.RAM behind the open gate. -/
theorem wrRam_of_ramWe (h : (ports i s).ramWe = true) : s.ramEnabled = true ∧ ∃ a d, i = .wrRam a d := by
  cases i with
  | wrRam a d => exact ⟨h, a, d, rfl⟩
  | _ => cases h

end Offsets

end Sys2Proof.Machine
end

section
/-! PROOF. The output ports agree with the operations (30_encoding.md R81). -/

namespace Sys2Proof.Machine

/-- What the ports `p` of a bus read of `a` say of its outcome `r` (30_encoding.md R81, 40_address_decoder.md R125). -/
def ReadPortsAgree (a : Address) (s : State) (r : Host.Outcome State Fault Refusal) (p : Ports) : Prop :=
  (∀ t, r = .next t → ∃ v, t.result = .byte v ∧ p.rdata = some v) ∧
  (∀ f, r = .fault f → p.rdata = none) ∧
  (p.responds = true ↔ a.toNat < 0x8000 ∨ (a.toNat / 0x2000 = 5 ∧ s.ramEnabled = true ∧ 1 ≤ s.ramSize)) ∧
  (∀ t, r = .next t → p.responds = false → p.rdata = some 0xFF) ∧
  (a.toNat < 0x8000 → ∃ o, p.romOff = some o ∧ o < s.romSize ∧ r = .next (s.returning (.byte (s.romByte o)))) ∧
  (0x8000 ≤ a.toNat → p.romOff = none) ∧
  (a.toNat / 0x2000 = 5 → 1 ≤ s.ramSize → ∃ o, p.ramOff = some o ∧ o < s.ramSize ∧
    (s.ramEnabled = true → r = .next (s.returning (.byte (s.ramByte o))))) ∧
  (a.toNat / 0x2000 ≠ 5 ∨ s.ramSize = 0 → p.ramOff = none) ∧
  (p.ramSel = true ↔ a.toNat / 0x2000 = 5 ∧ s.ramEnabled = true) ∧ p.ramWe = false

section Read

variable (s : State) {a : Address}

theorem readPortsAgree_rom (h : a.toNat < 0x8000) :
    ReadPortsAgree a s (exec (decodeRead a) s) (ports (decodeRead a) s) := by
  obtain ⟨o, ho, hexec, hports⟩ := ports_decodeRead_rom s h
  have h5 : a.toNat / 0x2000 ≠ 5 := by omega
  have hresponds := (s.responds_iff a).mpr (.inl h)
  rw [hexec, hports]
  refine ⟨?_, nofun, s.responds_iff a, ?_, fun _ => ⟨o, rfl, ho, rfl⟩, fun hge => absurd h (Nat.not_lt.mpr hge),
    fun hw => absurd hw h5, fun _ => rfl, ⟨nofun, fun ⟨hw, _⟩ => absurd hw h5⟩, rfl⟩
  · rintro t ⟨⟩
    exact ⟨_, rfl, rfl⟩
  · exact fun t _ hsilent => absurd (hsilent.symm.trans hresponds) Bool.false_ne_true

theorem readPortsAgree_ramWindow (h : a.toNat / 0x2000 = 5) :
    ReadPortsAgree a s (exec (decodeRead a) s) (ports (decodeRead a) s) := by
  have hhigh : ¬a.toNat < 0x8000 := by omega
  rw [ports_decodeRead_ramWindow s h, decodeRead_eq_rdRam (a := a) (by omega)]
  refine ⟨fun t ht => ?_, fun f hf => ?_, s.responds_iff a, fun t ht hsilent => ?_, fun hlow => absurd hlow hhigh,
    fun _ => rfl, fun _ hs => ?_, ?_, ⟨fun hsel => ⟨h, hsel⟩, fun ⟨_, hen⟩ => hen⟩, rfl⟩
  · obtain ⟨hen, rfl⟩ | ⟨hen, hs, rfl⟩ := exec_rdRam_next ht
    · exact ⟨_, rfl, State.ramReadPort_disabled a hen⟩
    · exact ⟨_, rfl, State.ramReadPort_enabled a hen hs⟩
  · obtain ⟨hen, hs, -⟩ := exec_rdRam_fault hf
    exact State.ramReadPort_absent a hen hs
  · obtain ⟨hen, -⟩ | ⟨hen, hs, -⟩ := exec_rdRam_next ht
    · exact State.ramReadPort_disabled a hen
    · exact absurd (hsilent.symm.trans ((s.responds_iff a).mpr (.inr ⟨h, hen, hs⟩))) Bool.false_ne_true
  · exact ⟨_, State.ramOffPort_present a hs, State.ramOffset_lt a s hs, fun hen => exec_rdRam_enabled a hen hs⟩
  · rintro (hw | hs)
    · exact absurd h hw
    · exact State.ramOffPort_absent a hs

theorem readPortsAgree_noFunction (h : 0x8000 ≤ a.toNat) (h5 : a.toNat / 0x2000 ≠ 5) :
    ReadPortsAgree a s (exec (decodeRead a) s) (ports (decodeRead a) s) := by
  obtain ⟨hexec, hports⟩ := ports_decodeRead_noFunction s h h5
  rw [hexec, hports]
  refine ⟨?_, nofun, s.responds_iff a, fun _ _ _ => rfl, fun hlow => absurd h (Nat.not_le.mpr hlow), fun _ => rfl,
    fun hw => absurd hw h5, fun _ => rfl, ⟨nofun, fun ⟨hw, _⟩ => absurd hw h5⟩, rfl⟩
  rintro t ⟨⟩
  exact ⟨_, rfl, rfl⟩

theorem readPortsAgree (a : Address) (s : State) :
    ReadPortsAgree a s (exec (decodeRead a) s) (ports (decodeRead a) s) := by
  rcases Nat.lt_or_ge a.toNat 0x8000 with hlow | hhigh
  · exact readPortsAgree_rom s hlow
  · by_cases h5 : a.toNat / 0x2000 = 5
    · exact readPortsAgree_ramWindow s h5
    · exact readPortsAgree_noFunction s hhigh h5

end Read

/-- What the ports `p` of a bus write of `d` to `a` say (30_encoding.md R81). -/
def WritePortsAgree (a : Address) (d : Byte) (s : State) (p : Ports) : Prop :=
  (p.ramSel = true ↔ a.toNat / 0x2000 = 5 ∧ s.ramEnabled = true) ∧ p.ramWe = p.ramSel ∧ p.ramWdata = some d ∧
  (a.toNat / 0x2000 = 5 → p.ramOff = (ports (decodeRead a) s).ramOff) ∧ (a.toNat / 0x2000 ≠ 5 → p.ramOff = none) ∧
  p.romOff = none ∧ p.responds = false ∧ p.rdata = (if p.ramSel then none else some 0xFF)

theorem writePortsAgree (a : Address) (d : Byte) (s : State) : WritePortsAgree a d s (ports (decodeWrite a d) s) := by
  by_cases h5 : a.toNat / 0x2000 = 5
  · rw [ports_decodeWrite_ramWindow s d h5]
    exact ⟨⟨fun hsel => ⟨h5, hsel⟩, fun ⟨_, hen⟩ => hen⟩, rfl, rfl,
      fun _ => by rw [ports_decodeRead_ramWindow s h5], fun hw => absurd h5 hw, rfl, rfl, rfl⟩
  · rw [ports_decodeWrite_notRam s d h5]
    exact ⟨⟨nofun, fun ⟨hw, _⟩ => absurd hw h5⟩, rfl, rfl, fun hw => absurd hw h5, fun _ => rfl, rfl, rfl, rfl⟩

/-- Without `ram_we` an operation other than LOAD leaves the RAM image as it is. -/
theorem ram_eq_of_ramWe_false {i : Instr} {s t : State} (hload : i ≠ .load) (h : exec i s = .next t)
    (hwe : (ports i s).ramWe = false) : t.ram = s.ram := by
  by_contra hne
  obtain ⟨a, d, rfl, hen, -⟩ | ⟨hi, -⟩ := (effect_of_exec_next h).store_of_ram_ne hne
  · exact Bool.false_ne_true (hwe.symm.trans hen)
  · exact hload hi

/-- Settles O57: reads and writes region by region, and a store exactly under `ram_we`, at `ram_off`. -/
theorem portsAgreeWithTheOperations : Obligations.PortsAgreeWithTheOperations := by
  refine ⟨readPortsAgree, writePortsAgree, fun s i hi => ?_, fun i s => ⟨fun _ => romOff_lt_two_pow,
    fun _ => ramOff_lt_two_pow⟩, fun i s t hload h => ⟨ram_eq_of_ramWe_false hload h, fun hwe => ?_⟩⟩
  · obtain rfl | rfl : i = .save ∨ i = .load := by simpa using hi
    · exact ⟨rfl, rfl, rfl, rfl, rfl, rfl⟩
    · exact ⟨rfl, rfl, rfl, rfl, rfl, rfl⟩
  · obtain ⟨hen, a, d, rfl⟩ := wrRam_of_ramWe hwe
    obtain ⟨hoff, -⟩ | ⟨-, hs, rfl⟩ := exec_wrRam_next h
    · exact absurd (hoff.symm.trans hen) Bool.false_ne_true
    · exact ⟨_, d, State.ramOffPort_present a hs, rfl, hen, rfl, rfl⟩

end Sys2Proof.Machine
end
